-- ==== Sys2Proof/Word.lean ====
section
/-! DEFINITION. The value types of the CORE (spec/00_scope.md R6): unsigned bit strings of the widths the spec names. -/

namespace Sys2Proof

/-- An unsigned 8-bit value, `u8` of R6: a general register, a memory cell, a timer, an immediate `kk`. -/
abbrev Byte := BitVec 8

/-- An unsigned 16-bit value, `u16` of R6: `I`, `PC`, a stack entry, an instruction word. -/
abbrev Word := BitVec 16

/-- An unsigned 4-bit value, `u4` of R6: a register number `x` or `y`, a sprite height `n`. -/
abbrev Nibble := BitVec 4

/-- An unsigned 12-bit value, `u12` of R6: an address operand `nnn`. -/
abbrev Addr12 := BitVec 12

end Sys2Proof
end

