-- ==== Sys2Proof/Config.lean ====
section
/-! DEFINITION. The free values of the environment (spec/40_execution_cycle.md R89): uninterpreted, so that whatever is proved
holds for every value. The CORE's parameters (spec/00_scope.md R5) are data of the state, see Machine/Params.lean. -/

namespace Sys2Proof

/-- Whether a 60 Hz tick is due at the `k`-th step the environment draws for (R203, D5): no law, any Boolean
(notes/assumptions/3.md). -/
opaque Config.tickDue : Nat → Bool

/-- The source's `random_byte()` at the `k`-th step the environment draws for (R131, D6): no law, any byte
(notes/assumptions/3.md). -/
opaque Config.randomByte : Nat → Byte

end Sys2Proof
end

