-- ==== Sys2Proof/Machine/Params.lean ====
section
/-! DEFINITION. The four parameters the spec leaves as arguments of the model (spec/00_scope.md R5; D1, D3, D13, D20) and
their defaults. A State carries them, nothing writes them, so a claim about every state is a claim about every choice. -/

namespace Sys2Proof.Machine

/-- The rows of R5 of kind "parameter". -/
structure Params where
  /-- `FETCH_BIG_ENDIAN` (R48, D1): the byte at `PC` is the high byte of the word. -/
  fetchBigEndian : Bool
  /-- `STACK_DEPTH` (R16, D3): how many return addresses the stack holds; legal range 1 to 255. -/
  stackDepth : Nat
  /-- `EDGE_WRAP` (R163, D13): sprite pixels past the grid edge wrap instead of being clipped. -/
  edgeWrap : Bool
  /-- `FONT` (R45, D20): the 80 glyph bytes reset writes at address 0. -/
  font : Vector Byte 80
  deriving DecidableEq, Repr

/-- The legal values of the parameters: only `STACK_DEPTH` is bounded (R5). -/
abbrev Params.legal (p : Params) : Prop := 1 ≤ p.stackDepth ∧ p.stackDepth ≤ 255

/-- Glyphs 0 to 7 of the default font, the table of R45 row by row (PRESUMED by the spec, D20). -/
def fontGlyphs0to7 : Vector Byte 40 :=
  #v[0xF0, 0x90, 0x90, 0x90, 0xF0,  0x20, 0x60, 0x20, 0x20, 0x70,
     0xF0, 0x10, 0xF0, 0x80, 0xF0,  0xF0, 0x10, 0xF0, 0x10, 0xF0,
     0x90, 0x90, 0xF0, 0x10, 0x10,  0xF0, 0x80, 0xF0, 0x10, 0xF0,
     0xF0, 0x80, 0xF0, 0x90, 0xF0,  0xF0, 0x10, 0x20, 0x40, 0x40]

/-- Glyphs 8 to F of the default font, the table of R45 row by row (PRESUMED by the spec, D20). -/
def fontGlyphs8toF : Vector Byte 40 :=
  #v[0xF0, 0x90, 0xF0, 0x90, 0xF0,  0xF0, 0x90, 0xF0, 0x10, 0xF0,
     0xF0, 0x90, 0xF0, 0x90, 0x90,  0xE0, 0x90, 0xE0, 0x90, 0xE0,
     0xF0, 0x80, 0x80, 0x80, 0xF0,  0xE0, 0x90, 0x90, 0x90, 0xE0,
     0xF0, 0x80, 0xF0, 0x80, 0xF0,  0xF0, 0x80, 0xF0, 0x80, 0x80]

/-- The default of `FONT`: 16 glyphs of 5 bytes (R45). -/
def defaultFont : Vector Byte 80 := fontGlyphs0to7 ++ fontGlyphs8toF

/-- The defaults of R5: big-endian fetch, 16 stack entries, clipping, the font of R45. -/
def defaultParams : Params :=
  { fetchBigEndian := true, stackDepth := 16, edgeWrap := false, font := defaultFont }

end Sys2Proof.Machine
end

