-- ==== Sys2Proof/Machine/State.lean ====
section
/-! DEFINITION. The machine's state: every element of spec/10_state.md (its summary table and R10 to R32), the parameters of
R5, and three fields of the model's own for the environment (draws and the host's pending operations). -/

namespace Sys2Proof.Machine

/-- The Machine lifecycle state `life` (R26). -/
inductive Life where
  | initialized
  | running
  | halted
  deriving DecidableEq, Repr

/-- A fatal error, the content of the `fault` latch (R27, R240): entering one is a NEXT state (R245). -/
inductive FatalError where
  /-- A byte access at `addr`, above `0xFFF` (R241). -/
  | outOfBounds (addr : Nat)
  /-- A push onto a full stack (R242). -/
  | stackOverflow
  deriving DecidableEq, Repr

/-- An operation of the host with its arguments (R236); every one is atomic (R233). -/
inductive HostOp where
  /-- `reset()` (R215). -/
  | reset
  /-- `start()` (R216). -/
  | start
  /-- `stop()` (R217). -/
  | stop
  /-- `step(tick_due, rnd)` (R80). -/
  | step (tickDue : Bool) (rnd : Byte)
  /-- `loadProgram(bytes)` (R222). -/
  | loadProgram (bytes : List Byte)
  /-- `setKeyState(key, pressed, tick_due)` (R181). -/
  | setKeyState (key : Nat) (pressed tickDue : Bool)
  /-- `getFrame()` (R230). -/
  | getFrame
  /-- `getDebugState()` (R231). -/
  | getDebugState
  deriving DecidableEq, Repr

/-- Reasons to stop with a fault: none. The spec describes the state every error of the CORE leaves (R245), so an error is
a next state with the `fault` latch set, and no step of this machine ends in a fault (safe: nothing is left out). -/
inductive Fault where
  deriving DecidableEq, Repr

/-- Reasons to refuse an instruction. -/
inductive Refusal where
  /-- Raised by `exec` for an instruction with no meaning yet; no arm does (safe: the machine would stop). -/
  | notModelled (mnemonic : String)
  deriving DecidableEq, Repr

/-- `MEM` as the cells that differ from the reset contents, addresses rising (canonical form: Memory.wf in Ops.lean). -/
abbrev Memory := List Host.Cell

/-- `FB[y][x]` (R22): 32 rows of 64 pixels, `true` = set. -/
abbrev Frame := Vector (Vector Bool 64) 32

/-- All state of the CORE (R10 to R32), its parameters (R5) and the environment's data. -/
structure State where
  /-- The implementation parameters (R5); no operation writes them. -/
  params : Params
  /-- `V[0]` to `V[15]` (R10); `V[15]` is the flag register `VF` (R11). -/
  v : Vector Byte 16
  /-- `I` (R12). -/
  i : Word
  /-- `PC` (R13). -/
  pc : Word
  /-- `SP`, the number of return addresses on the stack (R15). -/
  sp : Byte
  /-- `STACK`, `STACK_DEPTH` entries (R16). -/
  stack : List Word
  /-- `MEM` (R21). -/
  mem : Memory
  /-- `FB` (R22). -/
  fb : Frame
  /-- `KEY[0]` to `KEY[15]`, `true` = pressed (R23). -/
  key : Vector Bool 16
  /-- `DT`, the delay timer (R24). -/
  dt : Byte
  /-- `ST`, the sound timer (R24). -/
  st : Byte
  /-- `await`: the CPU is in `AWAITING_KEY` (R25). -/
  await : Bool
  /-- `life` (R26). -/
  life : Life
  /-- `fault`, the sticky fatal-error latch (R27). -/
  fault : Option FatalError
  /-- The model's own: the draw `rnd` on the input port in the current step (R29, R89). -/
  rnd : Byte
  /-- The model's own: how many pairs of draws have been taken from the environment. -/
  draws : Nat
  /-- The model's own: host operations issued and not yet performed, oldest first (R233). -/
  inbox : List HostOp
  deriving DecidableEq, Repr

/-- The state after reset of a CORE with parameters `p` (R30): memory reads as the reset contents, nothing is listed. -/
def State.resetWith (p : Params) : State :=
  { params := p
    v := Vector.replicate 16 0
    i := 0x0000
    pc := 0x0200
    sp := 0
    stack := List.replicate p.stackDepth 0
    mem := []
    fb := Vector.replicate 32 (Vector.replicate 64 false)
    key := Vector.replicate 16 false
    dt := 0
    st := 0
    await := false
    life := .initialized
    fault := none
    rnd := 0
    draws := 0
    inbox := [] }

/-- The state after reset, and at creation (R30, R271), with the default parameters of R5 and no host operation pending. -/
def State.reset : State := State.resetWith defaultParams

end Sys2Proof.Machine
end

