-- ==== Sys2Proof/Machine/Ops.lean ====
section
/-! DEFINITION. The named operations every instruction is written with: memory, the fatal-error entry, registers, the
program counter, the stack, block transfers and the timers' tick. -/

namespace Sys2Proof.Machine

/-- The outcome of a step of this machine. -/
abbrev Result := Host.Outcome State Fault Refusal

/-! ## Memory (spec/20_memory.md) -/

/-- What an address nothing has written reads as, the reset contents (R44): the font at `0x000` to `0x04F`, else zero. -/
def unlistedByte (font : Vector Byte 80) (a : Nat) : Byte := (font[a]?).getD 0

/-- The listed byte at an address, if there is one. -/
def Memory.lookup : Memory → Nat → Option Byte
  | [], _ => none
  | (k, b) :: m, a => if k = a then some b else Memory.lookup m a

/-- The byte at an address: the listed one, else the reset contents. -/
def Memory.read (font : Vector Byte 80) (m : Memory) (a : Nat) : Byte :=
  (Memory.lookup m a).getD (unlistedByte font a)

/-- Put a byte before the rest of a memory, unless the address reads as that byte anyway. -/
def Memory.consCell (font : Vector Byte 80) (a : Nat) (b : Byte) (m : Memory) : Memory :=
  if b = unlistedByte font a then m else (a, b) :: m

/-- Store a byte, keeping the list rising and free of cells that read as the reset contents. -/
def Memory.write (font : Vector Byte 80) : Memory → Nat → Byte → Memory
  | [], a, b => Memory.consCell font a b []
  | (k, c) :: m, a, b =>
    if a < k then Memory.consCell font a b ((k, c) :: m)
    else if a = k then Memory.consCell font a b m
    else (k, c) :: Memory.write font m a b

/-- The canonical form of memory: addresses strictly rising, each in the address space, no cell that reads as an unlisted
address does. Equal memories are then equal lists. -/
abbrev Memory.wf (font : Vector Byte 80) (m : Memory) : Prop :=
  m.Pairwise (fun c d => c.1 < d.1) ∧ ∀ c ∈ m, c.1 ≤ 0xFFF ∧ c.2 ≠ unlistedByte font c.1

/-- `MEM[a]`, one byte, with no bounds check. -/
def State.readByte (s : State) (a : Nat) : Byte := Memory.read s.params.font s.mem a

/-- `MEM[a] <- b`, with no bounds check. -/
def State.writeByte (s : State) (a : Nat) (b : Byte) : State :=
  { s with mem := Memory.write s.params.font s.mem a b }

/-- `MemRead(addr, 1)`: `OutOfBounds(addr)` above `0xFFF`, else the byte (R41, R42). -/
def memRead (s : State) (addr : Nat) : Except FatalError Byte :=
  if addr > 0xFFF then .error (.outOfBounds addr) else .ok (s.readByte addr)

/-- `MemWrite(addr, 1, v)`: `OutOfBounds(addr)` above `0xFFF` with nothing written, else the byte is stored (R41, R43). -/
def memWrite (s : State) (addr : Nat) (b : Byte) : Except FatalError State :=
  if addr > 0xFFF then .error (.outOfBounds addr) else .ok (s.writeByte addr b)

/-! ## Taking a fatal error, and the way back (spec/60_exceptions.md) -/

/-- The state fatal-error entry leaves (R245): `life <- HALTED`, `fault <- F`, and every effect the step had before the
raise stays, `PC` included, which still addresses the faulting instruction. -/
def State.halt (s : State) (e : FatalError) : State := { s with life := .halted, fault := some e }

/-- `raise F` in state `s`: the machine goes to the halted state and stays there; no handler, no vector (R245). -/
def fatalEntry (e : FatalError) (s : State) : Result := .next (s.halt e)

/-- The only return from a fatal error is `reset()` (R249, R215): every state element takes its reset value (R30). The
parameters, and the environment's own data, are no state of the CORE and stay. -/
def State.resetCore (s : State) : State :=
  { State.resetWith s.params with rnd := s.rnd, draws := s.draws, inbox := s.inbox }

/-! ## Registers and the program counter -/

/-- `V[i]` (R10): no register is hard-wired. -/
def State.reg (s : State) (i : Nibble) : Byte := s.v[i.toNat]'i.isLt

/-- `V[i] <- b`. -/
def State.setReg (s : State) (i : Nibble) (b : Byte) : State := { s with v := s.v.set i.toNat b i.isLt }

/-- `VF <- b`, the flag register (R11). -/
def State.setVF (s : State) (b : Byte) : State := s.setReg 0xF b

/-- `PC <- PC + 2`: the sequential advance (R84), modulo 65536. -/
def State.advance (s : State) : State := { s with pc := s.pc + 2 }

/-- "Skip next" (R109, R84): `PC <- PC + 4` when the condition holds, `PC <- PC + 2` when not. -/
def State.skipIf (s : State) (c : Bool) : State := { s with pc := if c then s.pc + 4 else s.pc + 2 }

/-- A branch leaves `PC` exactly at its target (R84). -/
def State.jump (s : State) (target : Word) : State := { s with pc := target }

/-! ## The stack (R15 to R20) -/

/-- `Push(v)`: a full stack raises `StackOverflow` and nothing changes (R19). -/
def push (s : State) (a : Word) : Except FatalError State :=
  if s.params.stackDepth ≤ s.sp.toNat then .error .stackOverflow
  else .ok { s with stack := s.stack.set s.sp.toNat a, sp := s.sp + 1 }

/-- `Pop()`: the popped value and the state after; an empty stack gives `0x0000` and stays empty; it never fails, and an
entry the stack does not have reads `0` (R20). -/
def pop (s : State) : Word × State :=
  if s.sp = 0 then (0, s) else ((s.stack[s.sp.toNat - 1]?).getD 0, { s with sp := s.sp - 1 })

/-! ## Block transfers: byte accesses in ascending order, each checked by itself (R49, R143) -/

/-- Store the bytes at `addr`, `addr + 1`, … and stop at the first address that raises; what was stored stays (R246). -/
def storeBytes (s : State) (addr : Nat) : List Byte → State × Option FatalError
  | [] => (s, none)
  | b :: bs =>
    match memWrite s addr b with
    | .error e => (s, some e)
    | .ok s' => storeBytes s' (addr + 1) bs

/-- Load `count` registers from `V[r]` up with the bytes at `addr`, `addr + 1`, … and stop at the first address that
raises; what was loaded stays (R246). -/
def loadRegs (s : State) (addr r : Nat) : Nat → State × Option FatalError
  | 0 => (s, none)
  | count + 1 =>
    match memRead s addr with
    | .error e => (s, some e)
    | .ok b => loadRegs { s with v := s.v.setIfInBounds r b } (addr + 1) (r + 1) count

/-- Read `count` bytes at `addr`, `addr + 1`, …; the first address out of bounds raises (R166, phase 1). -/
def readBytes (s : State) (addr : Nat) : Nat → Except FatalError (List Byte)
  | 0 => .ok []
  | count + 1 =>
    match memRead s addr with
    | .error e => .error e
    | .ok b =>
      match readBytes s (addr + 1) count with
      | .error e => .error e
      | .ok bs => .ok (b :: bs)

/-! ## Timers (spec/46_timers.md) -/

/-- One decrement, floored at zero (R200, R202). -/
def timerTick (t : Byte) : Byte := if t = 0 then 0 else t - 1

/-- `Tick()` when it is due, nothing otherwise: both timers, at most one each (R202). -/
def State.tickIf (s : State) (due : Bool) : State :=
  { s with dt := if due then timerTick s.dt else s.dt, st := if due then timerTick s.st else s.st }

/-- `isActive()` of a timer (R206). -/
def timerActive (t : Byte) : Bool := t != 0

end Sys2Proof.Machine
end

