-- ==== Sys2Proof/Machine/Operands.lean ====
section
/-! DEFINITION. Every operand form of the instruction set (spec/30_encoding.md R62, spec/43_index_memory.md R143). -/

namespace Sys2Proof.Machine

/-- An address operand in a 16-bit register: bits 15:12 zero (R62). -/
def addrOperand (nnn : Addr12) : Word := nnn.setWidth 16

/-- A byte operand where it meets a 16-bit value: zero-extended (R62). -/
def wideOperand (b : Byte) : Word := b.setWidth 16

/-- The effective address `I + k` of the one addressing mode, in unbounded integers: no wrap before the check (R143, R56). -/
def effAddr (s : State) (k : Nat) : Nat := s.i.toNat + k

/-- The register group `V[0]`, …, `V[x]` of `Fx55` (R145). -/
def regGroup (s : State) (x : Nibble) : List Byte := s.v.toList.take (x.toNat + 1)

/-- How many registers or bytes a group operand `x` names (R145, R146). -/
def groupSize (x : Nibble) : Nat := x.toNat + 1

/-- The three decimal digits of a byte, hundreds first (R144). -/
def decimalDigits (b : Byte) : List Byte :=
  [BitVec.ofNat 8 (b.toNat / 100), BitVec.ofNat 8 (b.toNat / 10 % 10), BitVec.ofNat 8 (b.toNat % 10)]

/-- The level of the key a byte names; a key above 15 does not exist and reads as not pressed (R182, D14). -/
def keyPressed (s : State) (k : Byte) : Bool := (s.key[k.toNat]?).getD false

/-- The address of the glyph of a digit: `FONT_BASE + 5 * v`, the whole byte multiplied (R142). -/
def glyphAddr (b : Byte) : Word := wideOperand b * 5

end Sys2Proof.Machine
end

