-- ==== Sys2Proof/Machine/ControlFlow.lean ====
section
/-! DEFINITION. Control transfer (spec/41_control_flow.md R100 to R110) and the unrecognized no-op
(spec/40_execution_cycle.md R85). Each meaning is the net effect, the change of `PC` included (R83). -/

namespace Sys2Proof.Machine

/-- `00EE` RET: `PC <- Pop()` exactly, with no further advance (R100). -/
def execRet (s : State) : Result := .next ((pop s).2.jump (pop s).1)

/-- `1nnn` JP: `PC <- nnn` (R101). -/
def execJp (nnn : Addr12) (s : State) : Result := .next (s.jump (addrOperand nnn))

/-- `2nnn` CALL: `Push(PC_old + 2); PC <- nnn`; a full stack is the fatal error `StackOverflow` (R102). -/
def execCall (nnn : Addr12) (s : State) : Result :=
  match push s (s.pc + 2) with
  | .error e => fatalEntry e s
  | .ok t => .next (t.jump (addrOperand nnn))

/-- `Bnnn` JP V0: `PC <- V0 + nnn` in 16 bits, not reduced to 12 (R104, D2). -/
def execJpV0 (nnn : Addr12) (s : State) : Result := .next (s.jump (wideOperand (s.reg 0) + addrOperand nnn))

/-- `3xkk` SE (R105). -/
def execSeImm (x : Nibble) (kk : Byte) (s : State) : Result := .next (s.skipIf (s.reg x == kk))

/-- `4xkk` SNE (R106). -/
def execSneImm (x : Nibble) (kk : Byte) (s : State) : Result := .next (s.skipIf (s.reg x != kk))

/-- `5xy0` SE (R107). -/
def execSeReg (x y : Nibble) (s : State) : Result := .next (s.skipIf (s.reg x == s.reg y))

/-- `9xy0` SNE (R108). -/
def execSneReg (x y : Nibble) (s : State) : Result := .next (s.skipIf (s.reg x != s.reg y))

/-- An unrecognized word: a no-op that advances `PC` by 2, no error (R85, R66); the word itself has no further effect. -/
def execUnrecognized (_w : Word) (s : State) : Result := .next s.advance

end Sys2Proof.Machine
end

