-- ==== Sys2Proof/Machine/Flags.lean ====
section
/-! DEFINITION. The values instructions write to the flag register `VF`, one function per row of R11's table
(spec/10_state.md R11). -/

namespace Sys2Proof.Machine

/-- A flag in an 8-bit register: `1` or `0`. -/
def flagByte (c : Bool) : Byte := if c then 1 else 0

/-- `8xy4`: `1` when the exact sum passes 255 (R126). -/
def carryFlag (a b : Byte) : Byte := flagByte (decide (a.toNat + b.toNat > 255))

/-- `8xy5`, `8xy7`: `0` when `a < b` (borrow of `a - b`), else `1` (R127, R129). -/
def notBorrowFlag (a b : Byte) : Byte := flagByte (!decide (a.toNat < b.toNat))

/-- `8xy6`: the bit a right shift by one shifts out, bit 0 (R128). -/
def lowBitFlag (b : Byte) : Byte := b &&& 1

/-- `8xyE`: the bit a left shift by one shifts out, bit 7 (R130). -/
def highBitFlag (b : Byte) : Byte := flagByte (b &&& 0x80 != 0)

/-- `Dxyn`: the collision flag (R162, R166). -/
def collisionFlag (c : Bool) : Byte := flagByte c

end Sys2Proof.Machine
end

