-- ==== Sys2Proof/Machine/Display.lean ====
section
/-! DEFINITION. The frame buffer and the sprite engine (spec/44_display.md R160 to R167). -/

namespace Sys2Proof.Machine

/-- `FB[y][x]`; there is no pixel outside the 64 by 32 grid, and a place outside reads unset (R160, R163). -/
def Frame.pixel (fb : Frame) (y x : Nat) : Bool :=
  if h : y < 32 ∧ x < 64 then (fb[y]'h.1)[x]'h.2 else false

/-- `FB[y][x] <- p`; a place outside the grid is stored nowhere (R163). -/
def Frame.setPixel (fb : Frame) (y x : Nat) (p : Bool) : Frame :=
  if h : y < 32 ∧ x < 64 then fb.set y ((fb[y]'h.1).set x p h.2) h.1 else fb

/-- The grid with every pixel unset. -/
def Frame.clear : Frame := Vector.replicate 32 (Vector.replicate 64 false)

/-- Column `c` of a sprite row, `0` leftmost: bit `7 - c` of its byte (R161). -/
def spriteBit (row : Byte) (c : Nat) : Bool := row.getLsbD (7 - c)

/-- The grid place (row, column) a sprite pixel targets, from unbounded coordinates (R163): clipped to nothing past an edge
by default, reduced per pixel with `EDGE_WRAP`. -/
def target (wrap : Bool) (py px : Nat) : Option (Nat × Nat) :=
  if wrap then some (py % 32, px % 64) else if px ≤ 63 ∧ py ≤ 31 then some (py, px) else none

/-- One sprite pixel: a `1` bit toggles its target and collides if the target was set; a `0` bit does nothing (R162). The
pair is the grid and the collision found so far. -/
def drawPixel (wrap : Bool) (py px : Nat) (bit : Bool) (d : Frame × Bool) : Frame × Bool :=
  if bit then
    match target wrap py px with
    | some (y, x) => (d.1.setPixel y x (!d.1.pixel y x), d.2 || d.1.pixel y x)
    | none => d
  else d

/-- The columns `c`, `c + 1`, … of one sprite row at grid row `py`, `k` of them. -/
def drawColumns (wrap : Bool) (x0 py : Nat) (row : Byte) (c : Nat) : Nat → Frame × Bool → Frame × Bool
  | 0, d => d
  | k + 1, d => drawColumns wrap x0 py row (c + 1) k (drawPixel wrap py (x0 + c) (spriteBit row c) d)

/-- The rows of a sprite, the first at grid row `py`, ascending (R166, phase 2). -/
def drawRows (wrap : Bool) (x0 : Nat) (py : Nat) : List Byte → Frame × Bool → Frame × Bool
  | [], d => d
  | row :: rows, d => drawRows wrap x0 (py + 1) rows (drawColumns wrap x0 py row 0 8 d)

/-- `drawSprite(x, y, rows)`: the grid after one draw and its collision flag, computed afresh (R162). -/
def drawSprite (wrap : Bool) (fb : Frame) (x0 y0 : Nat) (rows : List Byte) : Frame × Bool :=
  drawRows wrap x0 y0 rows (fb, false)

/-- `00E0` CLS (R165). -/
def execCls (s : State) : Result := .next { s with fb := Frame.clear }.advance

/-- `Dxyn` DRW: read all rows first, then draw, then `VF <-` collision (R166). A read out of bounds raises before any pixel
or `VF` changes. -/
def execDrw (x y n : Nibble) (s : State) : Result :=
  match readBytes s (effAddr s 0) n.toNat with
  | .error e => fatalEntry e s
  | .ok rows =>
    let d := drawSprite s.params.edgeWrap s.fb (s.reg x).toNat (s.reg y).toNat rows
    .next ({ s with fb := d.1 }.setVF (collisionFlag d.2)).advance

end Sys2Proof.Machine
end

