-- ==== Sys2Proof/Machine/IndexMemory.lean ====
section
/-! DEFINITION. Index-register and memory instructions (spec/43_index_memory.md R140 to R146). An access out of bounds
raises; the accesses before it stay made, `I` and `PC` keep their old values (R143, R246, D8). -/

namespace Sys2Proof.Machine

/-- `Annn` LD I (R140). -/
def execLdI (nnn : Addr12) (s : State) : Result := .next { s with i := addrOperand nnn }.advance

/-- `Fx1E` ADD I: modulo 65536, no flag (R141, D16). -/
def execAddI (x : Nibble) (s : State) : Result := .next { s with i := s.i + wideOperand (s.reg x) }.advance

/-- `Fx29` LD F: `I <- Vx * 5` (R142). -/
def execLdF (x : Nibble) (s : State) : Result := .next { s with i := glyphAddr (s.reg x) }.advance

/-- `Fx33` LD B: the three decimal digits of `Vx` at `I`, `I + 1`, `I + 2` (R144). -/
def execLdB (x : Nibble) (s : State) : Result :=
  match storeBytes s (effAddr s 0) (decimalDigits (s.reg x)) with
  | (t, some e) => fatalEntry e t
  | (t, none) => .next t.advance

/-- `I <- I + x + 1` after the last access of a block move, modulo 65536 (R145, R146). -/
def State.stepIndex (s : State) (x : Nibble) : State := { s with i := s.i + BitVec.ofNat 16 (groupSize x) }

/-- `Fx55` LD [I]: `V[0]`, …, `V[x]` to `I`, `I + 1`, … ascending, then `I <- I + x + 1` (R145). -/
def execLdMemVx (x : Nibble) (s : State) : Result :=
  match storeBytes s (effAddr s 0) (regGroup s x) with
  | (t, some e) => fatalEntry e t
  | (t, none) => .next (t.stepIndex x).advance

/-- `Fx65` LD Vx, [I]: `V[0]`, …, `V[x]` from `I`, `I + 1`, … ascending, then `I <- I + x + 1` (R146). -/
def execLdVxMem (x : Nibble) (s : State) : Result :=
  match loadRegs s (effAddr s 0) 0 (groupSize x) with
  | (t, some e) => fatalEntry e t
  | (t, none) => .next (t.stepIndex x).advance

end Sys2Proof.Machine
end

