-- ==== Sys2Proof/Machine/Keypad.lean ====
section
/-! DEFINITION. Key-skip instructions and the executing half of the blocking await (spec/45_keypad.md R182 to R185). The
completing half is in Machine/HostPorts.lean (R186). -/

namespace Sys2Proof.Machine

/-- `Ex9E` SKP: skip when the key `Vx` is pressed (R183). -/
def execSkp (x : Nibble) (s : State) : Result := .next (s.skipIf (keyPressed s (s.reg x)))

/-- `ExA1` SKNP: skip when the key `Vx` is not pressed (R184). -/
def execSknp (x : Nibble) (s : State) : Result := .next (s.skipIf (!keyPressed s (s.reg x)))

/-- `Fx0A` LD Vx, K: `await <- true` and nothing else; `PC` stays. `x` is read again when a key resolves the wait (R185,
R186). -/
def execLdVxK (_x : Nibble) (s : State) : Result := .next { s with await := true }

end Sys2Proof.Machine
end

