-- ==== Sys2Proof/Machine/RegisterAlu.lean ====
section
/-! DEFINITION. Register and ALU instructions (spec/42_register_alu.md R120 to R132). Operands are latched before any write
and writes happen in the listed order (R86, D7): the flag last in `8xy4`, `8xy5`, `8xy7`, the result last in `8xy6`,
`8xyE`. -/

namespace Sys2Proof.Machine

/-- Write the result to `V[x]`, then the flag to `VF`, and advance: the order of `8xy4`, `8xy5`, `8xy7` (R86). -/
def resultThenFlag (s : State) (x : Nibble) (result flag : Byte) : State := ((s.setReg x result).setVF flag).advance

/-- Write the flag to `VF`, then the result to `V[x]`, and advance: the order of `8xy6`, `8xyE` (R86). -/
def flagThenResult (s : State) (x : Nibble) (result flag : Byte) : State := ((s.setVF flag).setReg x result).advance

/-- `6xkk` LD (R120). -/
def execLdImm (x : Nibble) (kk : Byte) (s : State) : Result := .next (s.setReg x kk).advance

/-- `7xkk` ADD: modulo 256, `VF` untouched unless `x` is `F` (R121). -/
def execAddImm (x : Nibble) (kk : Byte) (s : State) : Result := .next (s.setReg x (s.reg x + kk)).advance

/-- `8xy0` LD (R122). -/
def execLdReg (x y : Nibble) (s : State) : Result := .next (s.setReg x (s.reg y)).advance

/-- `8xy1` OR, no flag (R123, D16). -/
def execOrReg (x y : Nibble) (s : State) : Result := .next (s.setReg x (s.reg x ||| s.reg y)).advance

/-- `8xy2` AND, no flag (R124, D16). -/
def execAndReg (x y : Nibble) (s : State) : Result := .next (s.setReg x (s.reg x &&& s.reg y)).advance

/-- `8xy3` XOR, no flag (R125, D16). -/
def execXorReg (x y : Nibble) (s : State) : Result := .next (s.setReg x (s.reg x ^^^ s.reg y)).advance

/-- `8xy4` ADD: result, then carry (R126). -/
def execAddReg (x y : Nibble) (s : State) : Result :=
  .next (resultThenFlag s x (s.reg x + s.reg y) (carryFlag (s.reg x) (s.reg y)))

/-- `8xy5` SUB: `Vx - Vy`, then not-borrow (R127). -/
def execSub (x y : Nibble) (s : State) : Result :=
  .next (resultThenFlag s x (s.reg x - s.reg y) (notBorrowFlag (s.reg x) (s.reg y)))

/-- `8xy6` SHR: flag, then `Vy >> 1` (R128). -/
def execShr (x y : Nibble) (s : State) : Result :=
  .next (flagThenResult s x (s.reg y >>> 1) (lowBitFlag (s.reg y)))

/-- `8xy7` SUBN: `Vy - Vx`, then not-borrow (R129). -/
def execSubn (x y : Nibble) (s : State) : Result :=
  .next (resultThenFlag s x (s.reg y - s.reg x) (notBorrowFlag (s.reg y) (s.reg x)))

/-- `8xyE` SHL: flag, then `Vy << 1` modulo 256 (R130). -/
def execShl (x y : Nibble) (s : State) : Result :=
  .next (flagThenResult s x (s.reg y <<< 1) (highBitFlag (s.reg y)))

/-- `Cxkk` RND: `V[x] <- rnd AND kk`, with `rnd` the step's draw, any byte (R131, D6; notes/assumptions/3.md). -/
def execRnd (x : Nibble) (kk : Byte) (s : State) : Result := .next (s.setReg x (s.rnd &&& kk)).advance

end Sys2Proof.Machine
end

