-- ==== Sys2Proof/Machine/Timers.lean ====
section
/-! DEFINITION. Timer instructions (spec/46_timers.md R207 to R209); the tick itself is in Machine/Ops.lean (R202). -/

namespace Sys2Proof.Machine

/-- `Fx07` LD Vx, DT: the value after this step's tick (R207). -/
def execLdVxDt (x : Nibble) (s : State) : Result := .next (s.setReg x s.dt).advance

/-- `Fx15` LD DT, Vx (R208). -/
def execLdDtVx (x : Nibble) (s : State) : Result := .next { s with dt := s.reg x }.advance

/-- `Fx18` LD ST, Vx (R209). -/
def execLdStVx (x : Nibble) (s : State) : Result := .next { s with st := s.reg x }.advance

end Sys2Proof.Machine
end

