-- ==== Sys2Proof/Syntax.lean ====
section
/-! DEFINITION. The instruction set as syntax: one constructor per row of the opcode map (spec/30_encoding.md R64), in its
order, and one for the default arm (R66). Operand fields have the widths of R62. -/

namespace Sys2Proof

/-- An instruction of the CORE. `x`, `y` are register numbers, `kk` an 8-bit immediate, `nnn` a 12-bit address, `n` a
sprite height (R62). -/
inductive Instr where
  /-- `00E0` clear the frame buffer (R165). -/
  | cls
  /-- `00EE` return from subroutine (R100). -/
  | ret
  /-- `1nnn` jump (R101). -/
  | jp (nnn : Addr12)
  /-- `2nnn` call subroutine (R102). -/
  | call (nnn : Addr12)
  /-- `3xkk` skip next if `Vx = kk` (R105). -/
  | seImm (x : Nibble) (kk : Byte)
  /-- `4xkk` skip next if `Vx` differs from `kk` (R106). -/
  | sneImm (x : Nibble) (kk : Byte)
  /-- `5xy0` skip next if `Vx = Vy` (R107). -/
  | seReg (x y : Nibble)
  /-- `6xkk` load immediate (R120). -/
  | ldImm (x : Nibble) (kk : Byte)
  /-- `7xkk` add immediate, no flag (R121). -/
  | addImm (x : Nibble) (kk : Byte)
  /-- `8xy0` copy register (R122). -/
  | ldReg (x y : Nibble)
  /-- `8xy1` bitwise or (R123). -/
  | orReg (x y : Nibble)
  /-- `8xy2` bitwise and (R124). -/
  | andReg (x y : Nibble)
  /-- `8xy3` bitwise exclusive or (R125). -/
  | xorReg (x y : Nibble)
  /-- `8xy4` add with carry flag (R126). -/
  | addReg (x y : Nibble)
  /-- `8xy5` `Vx - Vy` with not-borrow flag (R127). -/
  | sub (x y : Nibble)
  /-- `8xy6` `Vx` becomes `Vy` shifted right by one (R128). -/
  | shr (x y : Nibble)
  /-- `8xy7` `Vy - Vx` with not-borrow flag (R129). -/
  | subn (x y : Nibble)
  /-- `8xyE` `Vx` becomes `Vy` shifted left by one (R130). -/
  | shl (x y : Nibble)
  /-- `9xy0` skip next if `Vx` differs from `Vy` (R108). -/
  | sneReg (x y : Nibble)
  /-- `Annn` load the index register (R140). -/
  | ldI (nnn : Addr12)
  /-- `Bnnn` jump to `V0 + nnn` (R104). -/
  | jpV0 (nnn : Addr12)
  /-- `Cxkk` random byte masked with `kk` (R131). -/
  | rnd (x : Nibble) (kk : Byte)
  /-- `Dxyn` draw an `n`-row sprite at (`Vx`, `Vy`) (R166). -/
  | drw (x y n : Nibble)
  /-- `Ex9E` skip next if key `Vx` is pressed (R183). -/
  | skp (x : Nibble)
  /-- `ExA1` skip next if key `Vx` is not pressed (R184). -/
  | sknp (x : Nibble)
  /-- `Fx07` read the delay timer (R207). -/
  | ldVxDt (x : Nibble)
  /-- `Fx0A` await a key press (R185, R186). -/
  | ldVxK (x : Nibble)
  /-- `Fx15` set the delay timer (R208). -/
  | ldDtVx (x : Nibble)
  /-- `Fx18` set the sound timer (R209). -/
  | ldStVx (x : Nibble)
  /-- `Fx1E` add to the index register, no flag (R141). -/
  | addI (x : Nibble)
  /-- `Fx29` font glyph address (R142). -/
  | ldF (x : Nibble)
  /-- `Fx33` store three decimal digits (R144). -/
  | ldB (x : Nibble)
  /-- `Fx55` store `V0..Vx` (R145). -/
  | ldMemVx (x : Nibble)
  /-- `Fx65` load `V0..Vx` (R146). -/
  | ldVxMem (x : Nibble)
  /-- The default arm: a word `w` of no row of the map, executed as a no-op (R66, R85). -/
  | unrecognized (w : Word)
  deriving DecidableEq, Repr

end Sys2Proof
end

