-- ==== Sys2Proof/WellFormed.lean ====
section
/-! DEFINITION. The opcode map's fixed bits (spec/30_encoding.md R64) and the one check an instruction term needs: its
operand fields cannot be out of range (their types have R62's widths), but a term of the default arm must carry a word that
no row of the map matches (R66). -/

namespace Sys2Proof

/-- The `mask` and `match` columns of one row of R64, with the row's mnemonic in spec/opcode_table.json. -/
structure OpcodeRow where
  mask : Word
  fixed : Word
  mnemonic : String
  deriving DecidableEq, Repr

/-- The 34 rows of R64, in the spec's order, copied from its table and from nowhere else: the decoder of
Sys2Proof/Decode.lean is written nibble by nibble and is checked against this list. -/
def opcodeRows : List OpcodeRow :=
  [⟨0xFFFF, 0x00E0, "CLS"⟩, ⟨0xFFFF, 0x00EE, "RET"⟩, ⟨0xF000, 0x1000, "JP"⟩, ⟨0xF000, 0x2000, "CALL"⟩,
   ⟨0xF000, 0x3000, "SE_IMM"⟩, ⟨0xF000, 0x4000, "SNE_IMM"⟩, ⟨0xF00F, 0x5000, "SE_REG"⟩,
   ⟨0xF000, 0x6000, "LD_IMM"⟩, ⟨0xF000, 0x7000, "ADD_IMM"⟩, ⟨0xF00F, 0x8000, "LD_REG"⟩,
   ⟨0xF00F, 0x8001, "OR"⟩, ⟨0xF00F, 0x8002, "AND"⟩, ⟨0xF00F, 0x8003, "XOR"⟩, ⟨0xF00F, 0x8004, "ADD_REG"⟩,
   ⟨0xF00F, 0x8005, "SUB"⟩, ⟨0xF00F, 0x8006, "SHR"⟩, ⟨0xF00F, 0x8007, "SUBN"⟩, ⟨0xF00F, 0x800E, "SHL"⟩] ++
  [⟨0xF00F, 0x9000, "SNE_REG"⟩, ⟨0xF000, 0xA000, "LD_I"⟩, ⟨0xF000, 0xB000, "JP_V0"⟩, ⟨0xF000, 0xC000, "RND"⟩,
   ⟨0xF000, 0xD000, "DRW"⟩, ⟨0xF0FF, 0xE09E, "SKP"⟩, ⟨0xF0FF, 0xE0A1, "SKNP"⟩, ⟨0xF0FF, 0xF007, "LD_VX_DT"⟩,
   ⟨0xF0FF, 0xF00A, "LD_VX_K"⟩, ⟨0xF0FF, 0xF015, "LD_DT_VX"⟩, ⟨0xF0FF, 0xF018, "LD_ST_VX"⟩,
   ⟨0xF0FF, 0xF01E, "ADD_I"⟩, ⟨0xF0FF, 0xF029, "LD_F"⟩, ⟨0xF0FF, 0xF033, "LD_B"⟩,
   ⟨0xF0FF, 0xF055, "LD_MEM_VX"⟩, ⟨0xF0FF, 0xF065, "LD_VX_MEM"⟩]

/-- `(w AND mask) = match`, the test of R63. -/
def OpcodeRow.matchesWord (r : OpcodeRow) (w : Word) : Bool := w &&& r.mask == r.fixed

/-- No row of R64 matches the word: it is an unrecognized opcode (R66). -/
def matchesNoRow (w : Word) : Bool := opcodeRows.all fun r => !r.matchesWord w

/-- An instruction term is well-formed: only a term of the default arm can fail, by carrying a word of the map. -/
def Instr.wellFormed : Instr → Bool
  | .unrecognized w => matchesNoRow w
  | .cls | .ret | .jp _ | .call _ | .seImm _ _ | .sneImm _ _ | .seReg _ _ | .ldImm _ _ | .addImm _ _ => true
  | .ldReg _ _ | .orReg _ _ | .andReg _ _ | .xorReg _ _ | .addReg _ _ | .sub _ _ | .shr _ _ | .subn _ _ => true
  | .shl _ _ | .sneReg _ _ | .ldI _ | .jpV0 _ | .rnd _ _ | .drw _ _ _ | .skp _ | .sknp _ | .ldVxDt _ => true
  | .ldVxK _ | .ldDtVx _ | .ldStVx _ | .addI _ | .ldF _ | .ldB _ | .ldMemVx _ | .ldVxMem _ => true

/-- The mnemonic of the row of spec/opcode_table.json an instruction stands for. -/
def Instr.mnemonic : Instr → String
  | .cls => "CLS" | .ret => "RET" | .jp _ => "JP" | .call _ => "CALL"
  | .seImm _ _ => "SE_IMM" | .sneImm _ _ => "SNE_IMM" | .seReg _ _ => "SE_REG"
  | .ldImm _ _ => "LD_IMM" | .addImm _ _ => "ADD_IMM" | .ldReg _ _ => "LD_REG"
  | .orReg _ _ => "OR" | .andReg _ _ => "AND" | .xorReg _ _ => "XOR" | .addReg _ _ => "ADD_REG"
  | .sub _ _ => "SUB" | .shr _ _ => "SHR" | .subn _ _ => "SUBN" | .shl _ _ => "SHL"
  | .sneReg _ _ => "SNE_REG" | .ldI _ => "LD_I" | .jpV0 _ => "JP_V0" | .rnd _ _ => "RND" | .drw _ _ _ => "DRW"
  | .skp _ => "SKP" | .sknp _ => "SKNP" | .ldVxDt _ => "LD_VX_DT" | .ldVxK _ => "LD_VX_K"
  | .ldDtVx _ => "LD_DT_VX" | .ldStVx _ => "LD_ST_VX" | .addI _ => "ADD_I" | .ldF _ => "LD_F" | .ldB _ => "LD_B"
  | .ldMemVx _ => "LD_MEM_VX" | .ldVxMem _ => "LD_VX_MEM" | .unrecognized _ => "UNRECOGNIZED"

end Sys2Proof
end

