-- ==== Sys2Proof/Decode.lean ====
section
/-! DEFINITION. From bytes to instructions and back (spec/30_encoding.md R60 to R67, spec/20_memory.md R48). Decoding is
total: every 16-bit word is an instruction, a word of no row being the default arm (R66). -/

namespace Sys2Proof

/-! ## Fields (R62) -/

/-- The primary nibble `w[15:12]`. -/
def fieldClass (w : Word) : Nibble := w.extractLsb' 12 4
/-- `x = w[11:8]`. -/
def fieldX (w : Word) : Nibble := w.extractLsb' 8 4
/-- `y = w[7:4]`. -/
def fieldY (w : Word) : Nibble := w.extractLsb' 4 4
/-- `n = w[3:0]`. -/
def fieldN (w : Word) : Nibble := w.extractLsb' 0 4
/-- `kk = w[7:0]`. -/
def fieldKk (w : Word) : Byte := w.extractLsb' 0 8
/-- `nnn = w[11:0]`. -/
def fieldNnn (w : Word) : Addr12 := w.extractLsb' 0 12

/-! ## Decoding (R63 to R66) -/

/-- Class 8: nine register operations by function nibble (R65). -/
def decodeClass8 (w : Word) : Instr :=
  match (fieldN w).toNat with
  | 0x0 => .ldReg (fieldX w) (fieldY w)
  | 0x1 => .orReg (fieldX w) (fieldY w)
  | 0x2 => .andReg (fieldX w) (fieldY w)
  | 0x3 => .xorReg (fieldX w) (fieldY w)
  | 0x4 => .addReg (fieldX w) (fieldY w)
  | 0x5 => .sub (fieldX w) (fieldY w)
  | 0x6 => .shr (fieldX w) (fieldY w)
  | 0x7 => .subn (fieldX w) (fieldY w)
  | 0xE => .shl (fieldX w) (fieldY w)
  | _ => .unrecognized w

/-- Class E: the two key skips by function byte (R65). -/
def decodeClassE (w : Word) : Instr :=
  match (fieldKk w).toNat with
  | 0x9E => .skp (fieldX w)
  | 0xA1 => .sknp (fieldX w)
  | _ => .unrecognized w

/-- Class F: nine operations by function byte (R65). -/
def decodeClassF (w : Word) : Instr :=
  match (fieldKk w).toNat with
  | 0x07 => .ldVxDt (fieldX w)
  | 0x0A => .ldVxK (fieldX w)
  | 0x15 => .ldDtVx (fieldX w)
  | 0x18 => .ldStVx (fieldX w)
  | 0x1E => .addI (fieldX w)
  | 0x29 => .ldF (fieldX w)
  | 0x33 => .ldB (fieldX w)
  | 0x55 => .ldMemVx (fieldX w)
  | 0x65 => .ldVxMem (fieldX w)
  | _ => .unrecognized w

/-- The instruction a 16-bit word stands for, by primary nibble (R65). Fixed digits are matched exactly (R63, D15): a word
that differs from a pattern only in a fixed digit is unrecognized. -/
def decodeWord (w : Word) : Instr :=
  match (fieldClass w).toNat with
  | 0x0 => if w = 0x00E0 then .cls else if w = 0x00EE then .ret else .unrecognized w
  | 0x1 => .jp (fieldNnn w)
  | 0x2 => .call (fieldNnn w)
  | 0x3 => .seImm (fieldX w) (fieldKk w)
  | 0x4 => .sneImm (fieldX w) (fieldKk w)
  | 0x5 => if fieldN w = 0 then .seReg (fieldX w) (fieldY w) else .unrecognized w
  | 0x6 => .ldImm (fieldX w) (fieldKk w)
  | 0x7 => .addImm (fieldX w) (fieldKk w)
  | 0x8 => decodeClass8 w
  | 0x9 => if fieldN w = 0 then .sneReg (fieldX w) (fieldY w) else .unrecognized w
  | 0xA => .ldI (fieldNnn w)
  | 0xB => .jpV0 (fieldNnn w)
  | 0xC => .rnd (fieldX w) (fieldKk w)
  | 0xD => .drw (fieldX w) (fieldY w) (fieldN w)
  | 0xE => decodeClassE w
  | _ => decodeClassF w

/-- The instruction word of the byte at `PC` and the byte at `PC + 1` (R48): with `bigEndian` the first is `w[15:8]`. -/
def joinBytes (bigEndian : Bool) (first second : Byte) : Word :=
  if bigEndian then first ++ second else second ++ first

/-- The two bytes of a word in the order they lie in memory, lower address first (R48). -/
def splitWord (bigEndian : Bool) (w : Word) : Byte × Byte :=
  if bigEndian then (w.extractLsb' 8 8, w.extractLsb' 0 8) else (w.extractLsb' 0 8, w.extractLsb' 8 8)

/-- Why a byte sequence holds no instruction. -/
inductive DecodeError where
  /-- Fewer than two bytes are there: an instruction is one 16-bit word (R60). Every two bytes decode. -/
  | truncated
  deriving DecidableEq, Repr

/-- Decode the first instruction of a byte sequence and return the rest. Total: a refusal has a name. -/
def decodeBytes (bigEndian : Bool) : List Byte → Except DecodeError (Instr × List Byte)
  | first :: second :: rest => .ok (decodeWord (joinBytes bigEndian first second), rest)
  | [_] => .error .truncated
  | [] => .error .truncated

/-! ## Encoding, from the same patterns (R61, R64) -/

/-- Four hexadecimal digits `d3 d2 d1 d0` as a word (R60). -/
def ofDigits (d3 d2 d1 d0 : Nibble) : Word := d3 ++ d2 ++ d1 ++ d0
/-- Format `NNN`: class digit and 12-bit address. -/
def formatNNN (cl : Nibble) (nnn : Addr12) : Word := cl ++ nnn
/-- Formats `XKK` and `X`: class digit, register digit, low byte. -/
def formatXKK (cl x : Nibble) (kk : Byte) : Word := cl ++ x ++ kk

/-- The word of an instruction, row by row of R64. -/
def encode : Instr → Word
  | .cls => 0x00E0
  | .ret => 0x00EE
  | .jp nnn => formatNNN 0x1 nnn
  | .call nnn => formatNNN 0x2 nnn
  | .seImm x kk => formatXKK 0x3 x kk
  | .sneImm x kk => formatXKK 0x4 x kk
  | .seReg x y => ofDigits 0x5 x y 0x0
  | .ldImm x kk => formatXKK 0x6 x kk
  | .addImm x kk => formatXKK 0x7 x kk
  | .ldReg x y => ofDigits 0x8 x y 0x0
  | .orReg x y => ofDigits 0x8 x y 0x1
  | .andReg x y => ofDigits 0x8 x y 0x2
  | .xorReg x y => ofDigits 0x8 x y 0x3
  | .addReg x y => ofDigits 0x8 x y 0x4
  | .sub x y => ofDigits 0x8 x y 0x5
  | .shr x y => ofDigits 0x8 x y 0x6
  | .subn x y => ofDigits 0x8 x y 0x7
  | .shl x y => ofDigits 0x8 x y 0xE
  | .sneReg x y => ofDigits 0x9 x y 0x0
  | .ldI nnn => formatNNN 0xA nnn
  | .jpV0 nnn => formatNNN 0xB nnn
  | .rnd x kk => formatXKK 0xC x kk
  | .drw x y n => ofDigits 0xD x y n
  | .skp x => formatXKK 0xE x 0x9E
  | .sknp x => formatXKK 0xE x 0xA1
  | .ldVxDt x => formatXKK 0xF x 0x07
  | .ldVxK x => formatXKK 0xF x 0x0A
  | .ldDtVx x => formatXKK 0xF x 0x15
  | .ldStVx x => formatXKK 0xF x 0x18
  | .addI x => formatXKK 0xF x 0x1E
  | .ldF x => formatXKK 0xF x 0x29
  | .ldB x => formatXKK 0xF x 0x33
  | .ldMemVx x => formatXKK 0xF x 0x55
  | .ldVxMem x => formatXKK 0xF x 0x65
  | .unrecognized w => w

/-- The bytes of an instruction, lower address first. -/
def encodeBytes (bigEndian : Bool) (i : Instr) : List Byte :=
  [(splitWord bigEndian (encode i)).1, (splitWord bigEndian (encode i)).2]

/-- The decoder on a word of spec/opcode_table.json: the 16 bits of `w` (those above `nbits` zero) laid out as memory holds
them in the default byte order (R48: high byte first), then decoded. -/
def decodeTableWord (nbits w : Nat) : Option Instr :=
  let bytes := splitWord true (BitVec.ofNat 16 (w % 2 ^ nbits))
  match decodeBytes true [bytes.1, bytes.2] with
  | .ok (i, _) => some i
  | .error _ => none

end Sys2Proof
end

