-- ==== Sys2Proof/Machine/Fetch.lean ====
section
/-! DEFINITION. Instruction fetch (spec/40_execution_cycle.md R82) and the placing of a word where the next step fetches. -/

namespace Sys2Proof.Machine

/-- `Fetch(PC)`: the bytes at `PC` and `PC + 1`, read in that order and each bounds-checked, `PC + 1` not wrapped (R82, R56),
joined in the CORE's byte order (R48). Fetch changes no state. -/
def fetch (s : State) : Except FatalError Word :=
  match memRead s s.pc.toNat with
  | .error e => .error e
  | .ok first =>
    match memRead s (s.pc.toNat + 1) with
    | .error e => .error e
    | .ok second => .ok (joinBytes s.params.fetchBigEndian first second)

/-- Store a word at `PC` and `PC + 1` in the CORE's byte order (R48). -/
def State.storeWordAtPc (s : State) (w : Word) : State :=
  (s.writeByte s.pc.toNat (splitWord s.params.fetchBigEndian w).1).writeByte (s.pc.toNat + 1)
    (splitWord s.params.fetchBigEndian w).2

/-- A state whose very next step fetches and executes `w`: the run gate and the await gate open, no latched error (a running
machine has none, R218), no host operation before the step, `PC` fetchable (the program entry where it was not), and the
word stored there. It stands for a program loaded and started by the host (notes/assumptions/5.md). -/
def State.readyToRun (s : State) (w : Word) : State :=
  { s with
    life := .running, await := false, fault := none, inbox := []
    pc := if s.pc.toNat ≤ 0xFFE then s.pc else 0x0200 }.storeWordAtPc w

end Sys2Proof.Machine
end

