-- ==== Sys2Proof/Machine/HostPorts.lean ====
section
/-! DEFINITION. The host's operations other than `step`, and what the CORE answers (spec/49_host_interface.md R215 to R236,
spec/45_keypad.md R181, R186). -/

namespace Sys2Proof.Machine

/-- `start()`: runs the machine unless a fatal error is latched (R216, D9). -/
def startOp (s : State) : State :=
  match s.fault with
  | some _ => s
  | none => { s with life := .running }

/-- `stop()`: halts a running machine, does nothing otherwise (R217, D10). -/
def stopOp (s : State) : State := if s.life = .running then { s with life := .halted } else s

/-- Whether a block of `len` bytes at `offset` ends inside memory (R50). -/
def blockFits (offset len : Nat) : Bool := decide (offset + len ≤ 0x1000)

/-- Store the bytes at `addr`, `addr + 1`, … with the check already made as a whole (R50). -/
def storeBlock (s : State) (addr : Nat) : List Byte → State
  | [] => s
  | b :: bs => storeBlock (s.writeByte addr b) (addr + 1) bs

/-- `loadBlock(offset, bytes)`: all or nothing (R50). -/
def loadBlock (s : State) (offset : Nat) (bytes : List Byte) : State :=
  if blockFits offset bytes.length then storeBlock s offset bytes else s

/-- `loadProgram(bytes)`: the block at the program entry `0x200`; a program too long changes nothing (R222, D19). -/
def loadProgramOp (bytes : List Byte) (s : State) : State := loadBlock s 0x200 bytes

/-- `Resolve(k, tick_due)`, the completing half of `Fx0A`: tick, fetch the word at `PC` again, `V[x] <- k` with `x` its bits
11:8, `await <- false`, `PC <- PC + 2` (R186, D17). The fetch cannot fail in a state a run reaches; where it would, the step
it is part of raises (R80, R245; notes/assumptions/7.md). -/
def resolve (k : Nat) (tickDue : Bool) (s : State) : State :=
  let t := s.tickIf tickDue
  match fetch t with
  | .error e => t.halt e
  | .ok w => { t.setReg (fieldX w) (BitVec.ofNat 8 k) with await := false }.advance

/-- `KEY[k] <- level`. -/
def State.setKey (s : State) (k : Nat) (level : Bool) : State := { s with key := s.key.setIfInBounds k level }

/-- The stored level of key `k`. -/
def State.keyLevel (s : State) (k : Nat) : Bool := (s.key[k]?).getD false

/-- `setKeyState(key, pressed, tick_due)`: a key above 15 is rejected with no state change; otherwise the level is stored,
and a released-to-pressed edge resolves an await episode of a running machine (R181, D18). -/
def setKeyStateOp (key : Nat) (pressed tickDue : Bool) (s : State) : State :=
  if key > 15 then s
  else
    let edge := pressed && !s.keyLevel key
    let t := s.setKey key pressed
    if edge && t.await && t.life == .running then resolve key tickDue t else t

/-- `getFrame()`: the 2048 pixels, row-major, index `y * 64 + x` (R230, D24). -/
def frameBits (s : State) : List Bool := (s.fb.toList.map Vector.toList).flatten

/-- The output `sound_active` (R206, D25). -/
def soundActive (s : State) : Bool := timerActive s.st

/-- What `getDebugState()` returns (R231). -/
structure DebugState where
  pc : Word
  sp : Byte
  i : Word
  v : Vector Byte 16
  deriving DecidableEq, Repr

/-- `getDebugState()` (R231). -/
def debugState (s : State) : DebugState := { pc := s.pc, sp := s.sp, i := s.i, v := s.v }

/-- The `Status` a step returns (R87). -/
inductive Status where
  | idle
  | waiting
  | executed
  | fatal (e : FatalError)
  deriving DecidableEq, Repr

/-- The status of a step is a function of the states before and after it (R87). -/
def stepStatus (before after : State) : Status :=
  if before.life ≠ .running then .idle
  else
    match after.fault with
    | some e => .fatal e
    | none => if before.await then .waiting else .executed

/-- The result of a host operation (R236). -/
inductive HostReply where
  | none
  | ok
  | outOfBounds
  | invalidKey
  | status (st : Status)
  | frame (pixels : List Bool)
  | debug (d : DebugState)
  deriving DecidableEq, Repr

/-- What the host gets back from an operation, from the states before and after it (R236, R87, R243). -/
def hostReply (op : HostOp) (before after : State) : HostReply :=
  match op with
  | .reset => .none
  | .start => .none
  | .stop => .none
  | .step _ _ => .status (stepStatus before after)
  | .loadProgram bytes => if blockFits 0x200 bytes.length then .ok else .outOfBounds
  | .setKeyState key _ _ => if key > 15 then .invalidKey else .ok
  | .getFrame => .frame (frameBits before)
  | .getDebugState => .debug (debugState before)

/-- The number of a latched error (R257; the spec's own numbers, D9). -/
def faultCode : Option FatalError → Nat
  | .none => 0
  | some (.outOfBounds _) => 1
  | some .stackOverflow => 2

end Sys2Proof.Machine
end

