-- ==== Sys2Proof/Machine/Cycle.lean ====
section
/-! DEFINITION. The execution cycle: the host operation `step` (spec/40_execution_cycle.md R80) and the serialised performing
of host operations (spec/49_host_interface.md R233). -/

namespace Sys2Proof.Machine

/-- The part of a step behind the run gate and the tick: fetch, then the await gate, then execution (R80 steps 3 to 5). -/
def fetchExecute (s : State) : Result :=
  match fetch s with
  | .error e => fatalEntry e s
  | .ok w => if s.await then .next s else exec (decodeWord w) s

/-- `step(tick_due, rnd)`: nothing happens unless the machine runs (R91); else the draw `rnd` is on its port, the timers tick
first (R88), and then the instruction at `PC` is fetched and executed (R80). -/
def stepOp (tickDue : Bool) (rnd : Byte) (s : State) : Result :=
  if s.life = .running then fetchExecute ({ s with rnd := rnd }.tickIf tickDue) else .next s

/-- One operation of the host (R236). The queries change nothing (R230, R231). -/
def performOp (op : HostOp) (s : State) : Result :=
  match op with
  | .reset => .next s.resetCore
  | .start => .next (startOp s)
  | .stop => .next (stopOp s)
  | .step tickDue rnd => stepOp tickDue rnd s
  | .loadProgram bytes => .next (loadProgramOp bytes s)
  | .setKeyState key pressed tickDue => .next (setKeyStateOp key pressed tickDue s)
  | .getFrame => .next s
  | .getDebugState => .next s

/-- One operation of the machine: the oldest pending host operation if there is one, else a `step` whose two draws are the
environment's next free values (R233, R89; notes/assumptions/3.md, 4.md). -/
def cycle (s : State) : Result :=
  match s.inbox with
  | [] => stepOp (Config.tickDue s.draws) (Config.randomByte s.draws) { s with draws := s.draws + 1 }
  | op :: rest => performOp op { s with inbox := rest }

end Sys2Proof.Machine
end

