-- ==== Sys2Proof/Machine/Step.lean ====
section
/-! DEFINITION. The machine's step and the placing of an instruction word for it. -/

namespace Sys2Proof.Machine

/-- One step of the machine: the next host operation, a `step` of the CORE when none is pending (Machine/Cycle.lean). -/
def step (s : State) : Host.Outcome State Fault Refusal := cycle s

/-- The state whose next step runs the `nbits`-bit word `w`, bits above `nbits` zero (Machine/Fetch.lean). -/
def State.withFetchWord (s : State) (nbits w : Nat) : State := s.readyToRun (BitVec.ofNat 16 (w % 2 ^ nbits))

end Sys2Proof.Machine
end

