-- ==== Sys2Proof/Safety.lean ====
section
/-! DEFINITION. The terms claims are stated in: what a legal state is, what it means that memory is unchanged, and what a
sprite covers. -/

namespace Sys2Proof.Machine

/-- Memory as the program sees it is unchanged: every byte reads as before. -/
def SameMemory (s t : State) : Prop := ∀ a, t.readByte a = s.readByte a

/-- Memory is unchanged outside the `len` bytes at `addr`. -/
def SameMemoryOutside (s t : State) (addr len : Nat) : Prop :=
  ∀ a, (a < addr ∨ addr + len ≤ a) → t.readByte a = s.readByte a

/-- A register number is one of the group `V[0]`, …, `V[x]` (R145). -/
def InGroup (r x : Nibble) : Prop := r.toNat ≤ x.toNat

/-- Every address of a `len`-byte access of the one addressing mode (R143) is in memory. -/
def BlockInBounds (s : State) (len : Nat) : Prop := ∀ k < len, effAddr s k ≤ 0xFFF

/-- The offending address of a `len`-byte access at `addr`: the first of its addresses above `0xFFF` (R241). -/
def FirstOffending (addr len a : Nat) : Prop :=
  0xFFF < a ∧ addr ≤ a ∧ a < addr + len ∧ ∀ b, addr ≤ b → b < a → b ≤ 0xFFF

/-- `t` is a state a fatal error `e` has been entered in: halted, with the error latched (R245). -/
def Halted (e : FatalError) (t : State) : Prop := t.life = .halted ∧ t.fault = some e

/-- The machine is running and not waiting for a key: a step executes an instruction (R80). -/
def Executing (s : State) : Prop := s.life = .running ∧ s.await = false

/-- The word at `PC` as memory holds it (R48): the byte at `PC` is the high half with the default byte order. -/
def wordAtPc (s : State) : Word :=
  if s.params.fetchBigEndian then s.readByte s.pc.toNat ++ s.readByte (s.pc.toNat + 1)
  else s.readByte (s.pc.toNat + 1) ++ s.readByte s.pc.toNat

/-- The sprite of `DRW Vx, Vy, n` toggles the pixel at row `py`, column `px`: some row `r` and column `c` of it has bit `1`
and targets that pixel (R161, R163). -/
def SpriteCovers (s : State) (x y n : Nibble) (py px : Nat) : Prop :=
  ∃ r < n.toNat, ∃ c < 8, (s.readByte (effAddr s r)).getLsbD (7 - c) = true ∧
    if s.params.edgeWrap then ((s.reg y).toNat + r) % 32 = py ∧ ((s.reg x).toNat + c) % 64 = px
    else (s.reg y).toNat + r = py ∧ (s.reg x).toNat + c = px

/-- The address a latched error records lies where R27 says: `0x1000` to `0xFFFF`. -/
def latchInRange : Option FatalError → Bool
  | some (.outOfBounds a) => decide (0x1000 ≤ a ∧ a ≤ 0xFFFF)
  | some .stackOverflow => true
  | none => true

/-- What every state a run reaches satisfies: legal parameters (R5), the stack as `STACK_DEPTH` entries with `SP` within it
(R15, R16), return addresses and `PC` in their ranges (R13), `PC` fetchable while a key is awaited (R81), memory in
canonical form inside the address space (R40), and a latched error only in a halted machine (R218, R27). -/
structure Legal (s : State) : Prop where
  params : s.params.legal
  stack_length : s.stack.length = s.params.stackDepth
  sp_le : s.sp.toNat ≤ s.params.stackDepth
  stack_le : ∀ a ∈ s.stack, a.toNat ≤ 0x1000
  pc_le : s.pc.toNat ≤ 0x10FE
  await_pc : s.await = true → s.pc.toNat ≤ 0xFFE
  mem_wf : Memory.wf s.params.font s.mem
  fault_halted : s.fault ≠ none → s.life = .halted
  fault_range : latchInRange s.fault = true

end Sys2Proof.Machine
end

