-- ==== Sys2Proof/Certificates/Slice0/Obligations.lean ====
section
/-! DEFINITION. The statements for the provers, from the spec's numbered rules. Where a statement says how an instruction is
encoded it writes the word out from the pattern of spec/30_encoding.md R64 (digits and fields), not through `encode`.
A next state is given as the old one with the fields the instruction writes replaced, so every other field is unchanged. -/

open Sys2Proof Sys2Proof.Machine

/-! ## Encoding (spec/30_encoding.md) -/

/-- Decoding an encoded instruction gives it back, from the word and from bytes in either byte order (R60 to R64). -/
def Obligations.DecodeEncodeAgree : Prop :=
  ∀ i : Instr, i.wellFormed = true →
    decodeWord (encode i) = i ∧
    ∀ (bigEndian : Bool) (rest : List Byte),
      decodeBytes bigEndian (encodeBytes bigEndian i ++ rest) = .ok (i, rest)

/-- Every word decodes to a well-formed instruction term that encodes to that word, so no two words decode to one term. That
this holds of the unrecognized words, to all of which R66 gives the same meaning, is the model's choice: its term for the
default arm carries the word (notes/assumptions/10.md, DESIGN CHOICE). -/
def Obligations.EncodeDecodeAgree : Prop :=
  ∀ w : Word, encode (decodeWord w) = w ∧ (decodeWord w).wellFormed = true

/-- The decoder is the mask and match map of R64 read as R63 says: its rows are pairwise disjoint, a word a row matches
decodes to that row's instruction, and a word no row matches is unrecognized (exact matching is the spec's decision D15). -/
def Obligations.DecodingFollowsOpcodeMap : Prop :=
  opcodeRows.Pairwise (fun r q => ∀ w : Word, ¬(r.matchesWord w = true ∧ q.matchesWord w = true)) ∧
  ∀ w : Word,
    (∀ r ∈ opcodeRows, r.matchesWord w = true → (decodeWord w).mnemonic = r.mnemonic) ∧
    ((∀ r ∈ opcodeRows, r.matchesWord w = false) → decodeWord w = .unrecognized w)

/-- The unrecognized words are those R66 lists by class (the exact matching of fixed digits is the spec's decision D15). -/
def Obligations.UnrecognizedWordsByClass : Prop :=
  ∀ w : Word, decodeWord w = .unrecognized w ↔
    (w.toNat / 0x1000 = 0x0 ∧ w.toNat ≠ 0x00E0 ∧ w.toNat ≠ 0x00EE) ∨
    (w.toNat / 0x1000 = 0x5 ∧ w.toNat % 16 ≠ 0) ∨
    (w.toNat / 0x1000 = 0x8 ∧ w.toNat % 16 ∈ [0x8, 0x9, 0xA, 0xB, 0xC, 0xD, 0xF]) ∨
    (w.toNat / 0x1000 = 0x9 ∧ w.toNat % 16 ≠ 0) ∨
    (w.toNat / 0x1000 = 0xE ∧ w.toNat % 256 ∉ [0x9E, 0xA1]) ∨
    (w.toNat / 0x1000 = 0xF ∧ w.toNat % 256 ∉ [0x07, 0x0A, 0x15, 0x18, 0x1E, 0x29, 0x33, 0x55, 0x65])

/-- Words of the spec's own worked examples decode to the instructions it names (sanity). -/
def Obligations.SpecWordsDecode : Prop :=
  decodeWord 0x00E0 = .cls ∧ decodeWord 0x00EE = .ret ∧ decodeWord 0x1ABC = .jp 0xABC ∧
  decodeWord 0x3133 = .seImm 1 0x33 ∧ decodeWord 0x8F16 = .shr 0xF 1 ∧ decodeWord 0xA2F0 = .ldI 0x2F0 ∧
  decodeWord 0xD012 = .drw 0 1 2 ∧ decodeWord 0xE19E = .skp 1 ∧ decodeWord 0xF255 = .ldMemVx 2 ∧
  decodeWord 0x5121 = .unrecognized 0x5121

/-! ## Memory (spec/20_memory.md) -/

/-- A byte access above `0xFFF` raises `OutOfBounds` and changes nothing; in bounds a read returns the byte, and a write
changes that byte of memory and nothing else (R42, R43, with the bounds of R41). -/
def Obligations.MemoryReadAndWrite : Prop :=
  ∀ (s : State) (a : Nat) (b : Byte), Memory.wf s.params.font s.mem →
    (a > 0xFFF → memRead s a = .error (.outOfBounds a) ∧ memWrite s a b = .error (.outOfBounds a)) ∧
    (a ≤ 0xFFF → memRead s a = .ok (s.readByte a) ∧
      ∃ t, memWrite s a b = .ok t ∧ t = { s with mem := t.mem } ∧
        ∀ x, t.readByte x = if x = a then b else s.readByte x)

/-- `loadBlock` is all or nothing: a block that would pass `0xFFF` changes nothing, any other puts each byte at its place and
changes no other byte and no other state (R50). Its user is the host's `loadProgram`, at `0x200`, in every lifecycle state,
which answers whether the block fits (R222); that it is legal in every one, and that a load that fails neither halts the
machine nor latches an error, is the spec's decision D19 (notes/assumptions/15.md). -/
def Obligations.LoadBlockIsAllOrNothing : Prop :=
  ∀ (s : State) (offset : Nat) (bytes : List Byte), Memory.wf s.params.font s.mem →
    performOp (.loadProgram bytes) s = .next (loadBlock s 0x200 bytes) ∧
    (∀ t, hostReply (.loadProgram bytes) s t = if bytes.length ≤ 3584 then .ok else .outOfBounds) ∧
    (offset + bytes.length > 0x1000 → loadBlock s offset bytes = s) ∧
    (offset + bytes.length ≤ 0x1000 →
      loadBlock s offset bytes = { s with mem := (loadBlock s offset bytes).mem } ∧
      (∀ (k : Nat) (hk : k < bytes.length), (loadBlock s offset bytes).readByte (offset + k) = bytes[k]) ∧
      SameMemoryOutside s (loadBlock s offset bytes) offset bytes.length)

/-- Fetch reads the bytes at `PC` and `PC + 1` in that order, each checked, `PC + 1` not wrapped, at any alignment, and joins
them high byte first (low byte first when the parameter `FETCH_BIG_ENDIAN` is false: the default is the spec's decision
D1). -/
def Obligations.FetchReadsTwoBytes : Prop :=
  ∀ s : State,
    (s.pc.toNat ≤ 0xFFE → ∃ w : Word, fetch s = .ok w ∧
      w.toNat = if s.params.fetchBigEndian
        then (s.readByte s.pc.toNat).toNat * 256 + (s.readByte (s.pc.toNat + 1)).toNat
        else (s.readByte (s.pc.toNat + 1)).toNat * 256 + (s.readByte s.pc.toNat).toNat) ∧
    (s.pc.toNat = 0xFFF → fetch s = .error (.outOfBounds 0x1000)) ∧
    (s.pc.toNat > 0xFFF → fetch s = .error (.outOfBounds s.pc.toNat))

/-! ## The execution cycle (spec/40_execution_cycle.md) -/

/-- A step runs the decoded instruction: the machine's step on a running, not waiting state with a fetchable `PC` is `exec`
of the instruction the word at `PC` decodes to, on the state after this step's tick. The draws are the environment's free
values when no host operation is pending (the inbox and the draw counter are the model's own, notes/assumptions/3.md and
4.md), and those of the pending `step` operation otherwise. -/
def Obligations.StepRunsDecodedInstruction : Prop :=
  ∀ s : State, Executing s → s.pc.toNat ≤ 0xFFE →
    (s.inbox = [] →
      step s = exec (decodeWord (wordAtPc s))
        ({ s with draws := s.draws + 1, rnd := Config.randomByte s.draws }.tickIf (Config.tickDue s.draws))) ∧
    (∀ (tickDue : Bool) (rnd : Byte) (rest : List HostOp), s.inbox = .step tickDue rnd :: rest →
      step s = exec (decodeWord (wordAtPc s)) ({ s with inbox := rest, rnd := rnd }.tickIf tickDue))

/-- A `step` operation of a machine that is not running changes no state, whatever the draws, and its status is `Idle` (R91,
R87; the status is the spec's decision D23). The last clause is the model's choice: with no host operation pending the
machine's step is such a `step`, and it advances the model's own counter of draws and nothing else (DESIGN CHOICE,
notes/assumptions/3.md and 4.md). -/
def Obligations.StepNotRunningIsIdle : Prop :=
  ∀ (s : State) (tickDue : Bool) (rnd : Byte), s.life ≠ .running →
    performOp (.step tickDue rnd) s = .next s ∧
    hostReply (.step tickDue rnd) s s = .status .idle ∧
    (s.inbox = [] → step s = .next { s with draws := s.draws + 1 })

/-- The tick comes first, in every step of a running machine, whether it then waits, executes or meets a fatal error; an
instruction that reads or writes a timer sees and overrides the ticked value (R88). -/
def Obligations.TickComesFirst : Prop :=
  ∀ (s t : State) (tickDue : Bool) (rnd : Byte), s.life = .running →
    stepOp tickDue rnd s = .next t →
    let ticked : Byte → Nat := fun c => if tickDue then c.toNat - 1 else c.toNat
    let executed : Option Instr :=
      if s.await = true ∨ 0xFFE < s.pc.toNat then none else some (decodeWord (wordAtPc s))
    (t.dt.toNat = match executed with
      | some (.ldDtVx x) => (s.reg x).toNat
      | _ => ticked s.dt) ∧
    (t.st.toNat = match executed with
      | some (.ldStVx x) => (s.reg x).toNat
      | _ => ticked s.st) ∧
    ∀ x, executed = some (.ldVxDt x) → (t.reg x).toNat = ticked s.dt

/-- While a key is awaited a step executes nothing: only the timers can change (and the model's own draw port), `PC` stays
(R81). -/
def Obligations.WaitingStepExecutesNothing : Prop :=
  ∀ (s : State) (tickDue : Bool) (rnd : Byte), s.life = .running → s.await = true → s.pc.toNat ≤ 0xFFE →
    ∃ t, stepOp tickDue rnd s = .next t ∧
      t = { s with dt := t.dt, st := t.st, rnd := rnd } ∧
      t.dt.toNat = (if tickDue then s.dt.toNat - 1 else s.dt.toNat) ∧
      t.st.toNat = (if tickDue then s.st.toNat - 1 else s.st.toNat) ∧
      (s.fault = none → hostReply (.step tickDue rnd) s t = .status .waiting)

/-- A fetch past memory is the fatal error `OutOfBounds` with the first offending address: the machine halts with the error
latched, the tick stays, and nothing else changes (R82, R245; the latch is the spec's decision D9). -/
def Obligations.FetchOutOfBoundsHalts : Prop :=
  ∀ (s : State) (tickDue : Bool) (rnd : Byte), s.life = .running → 0xFFE < s.pc.toNat →
    ∃ t a, stepOp tickDue rnd s = .next t ∧ FirstOffending s.pc.toNat 2 a ∧ Halted (.outOfBounds a) t ∧
      t = { s with dt := t.dt, st := t.st, rnd := rnd, life := t.life, fault := t.fault } ∧
      t.dt.toNat = (if tickDue then s.dt.toNat - 1 else s.dt.toNat) ∧
      t.st.toNat = (if tickDue then s.st.toNat - 1 else s.st.toNat) ∧
      hostReply (.step tickDue rnd) s t = .status (.fatal (.outOfBounds a))

/-- An unrecognized word advances `PC` by 2 and does nothing else (R85). -/
def Obligations.UnrecognizedIsNoOp : Prop :=
  ∀ (w : Word) (s : State), exec (.unrecognized w) s = .next { s with pc := s.pc + 2 }

/-! ## Control transfer (spec/41_control_flow.md) -/

/-- `00EE`: `PC` is the popped return address exactly, or `0x0000` with `SP` still 0 when the stack is empty (R100). -/
def Obligations.RetPopsReturnAddress : Prop :=
  decodeWord 0x00EE = .ret ∧
  ∀ s : State,
    (s.sp.toNat = 0 → exec .ret s = .next { s with pc := 0x0000 }) ∧
    ∀ h : 0 < s.sp.toNat ∧ s.sp.toNat ≤ s.stack.length,
      exec .ret s = .next { s with pc := s.stack[s.sp.toNat - 1], sp := BitVec.ofNat 8 (s.sp.toNat - 1) }

/-- `2nnn` with room on the stack pushes `PC + 2` and jumps to `nnn` (R102; the depth is the parameter `STACK_DEPTH`, the
spec's decision D3). -/
def Obligations.CallPushesReturnAddress : Prop :=
  ∀ (nnn : Addr12) (s : State), s.stack.length = s.params.stackDepth → s.sp.toNat < s.params.stackDepth →
    decodeWord (0x2#4 ++ nnn) = .call nnn ∧
    ∃ t, exec (.call nnn) s = .next t ∧
      t = { s with pc := t.pc, sp := s.sp + 1, stack := t.stack } ∧ SameMemory s t ∧
      t.pc.toNat = nnn.toNat ∧ t.stack.length = s.stack.length ∧
      ∀ j, t.stack[j]? = if j = s.sp.toNat then some (s.pc + 2) else s.stack[j]?

/-- `2nnn` on a full stack is the fatal error `StackOverflow`: the machine halts with it latched and nothing else changes
(R102, R242, R245; the cap is the spec's decision D3). -/
def Obligations.CallOnFullStackOverflows : Prop :=
  ∀ (nnn : Addr12) (s : State), s.sp.toNat = s.params.stackDepth →
    exec (.call nnn) s = .next { s with life := .halted, fault := some .stackOverflow }

/-- `2nnn` followed by `00EE` comes back to the instruction after the call with the stack as deep as before (S8 of
spec/95_test_vectors.md, R100, R102). -/
def Obligations.CallThenRetReturns : Prop :=
  ∀ (nnn : Addr12) (s : State), s.params.legal → s.stack.length = s.params.stackDepth →
    s.sp.toNat < s.params.stackDepth →
    ∃ t u, exec (.call nnn) s = .next t ∧ exec .ret t = .next u ∧
      u = { s with pc := s.pc + 2, stack := u.stack } ∧
      ∀ j < s.sp.toNat, u.stack[j]? = s.stack[j]?

/-- `1nnn` sets `PC` to `nnn`, and `Bnnn` to `V0 + nnn`, at most `0x10FE` and not reduced to 12 bits (R101, R104). -/
def Obligations.JumpsSetPc : Prop :=
  ∀ (nnn : Addr12) (s : State),
    decodeWord (0x1#4 ++ nnn) = .jp nnn ∧ decodeWord (0xB#4 ++ nnn) = .jpV0 nnn ∧
    (∃ target : Word, target.toNat = nnn.toNat ∧ exec (.jp nnn) s = .next { s with pc := target }) ∧
    ∃ target : Word, target.toNat = (s.reg 0).toNat + nnn.toNat ∧ target.toNat ≤ 0x10FE ∧
      exec (.jpV0 nnn) s = .next { s with pc := target }

/-- The four register skips advance `PC` by 4 when their condition holds and by 2 when not, and write nothing else (R105 to
R108). -/
def Obligations.RegisterSkipsMovePc : Prop :=
  ∀ (x y : Nibble) (kk : Byte) (s : State),
    decodeWord (0x3#4 ++ x ++ kk) = .seImm x kk ∧ decodeWord (0x4#4 ++ x ++ kk) = .sneImm x kk ∧
    decodeWord (0x5#4 ++ x ++ y ++ 0x0#4) = .seReg x y ∧ decodeWord (0x9#4 ++ x ++ y ++ 0x0#4) = .sneReg x y ∧
    exec (.seImm x kk) s = .next { s with pc := if s.reg x = kk then s.pc + 4 else s.pc + 2 } ∧
    exec (.sneImm x kk) s = .next { s with pc := if s.reg x ≠ kk then s.pc + 4 else s.pc + 2 } ∧
    exec (.seReg x y) s = .next { s with pc := if s.reg x = s.reg y then s.pc + 4 else s.pc + 2 } ∧
    exec (.sneReg x y) s = .next { s with pc := if s.reg x ≠ s.reg y then s.pc + 4 else s.pc + 2 }

/-! ## Registers and ALU (spec/42_register_alu.md) -/

/-- `6xkk`, `7xkk`, `8xy0`: the value goes to `V[x]`, every other register (`VF` too) is unchanged, `PC` advances by 2 (R120,
R121, R122). -/
def Obligations.LoadsAndImmediateAddWriteVx : Prop :=
  ∀ (x y : Nibble) (kk : Byte) (s : State),
    decodeWord (0x6#4 ++ x ++ kk) = .ldImm x kk ∧ decodeWord (0x7#4 ++ x ++ kk) = .addImm x kk ∧
    decodeWord (0x8#4 ++ x ++ y ++ 0x0#4) = .ldReg x y ∧
    (∃ t, exec (.ldImm x kk) s = .next t ∧ t = { s with v := t.v, pc := s.pc + 2 } ∧ SameMemory s t ∧
      ∀ r, t.reg r = if r = x then kk else s.reg r) ∧
    (∃ t, exec (.addImm x kk) s = .next t ∧ t = { s with v := t.v, pc := s.pc + 2 } ∧ SameMemory s t ∧
      ∀ r, (t.reg r).toNat = if r = x then ((s.reg x).toNat + kk.toNat) % 256 else (s.reg r).toNat) ∧
    (∃ t, exec (.ldReg x y) s = .next t ∧ t = { s with v := t.v, pc := s.pc + 2 } ∧ SameMemory s t ∧
      ∀ r, t.reg r = if r = x then s.reg y else s.reg r)

/-- `8xy1`, `8xy2`, `8xy3`: bitwise or, and, exclusive or into `V[x]`; `VF` is not written unless it is `V[x]` (R123 to R125;
that no flag is written is the spec's decision D16). -/
def Obligations.LogicWritesVxOnly : Prop :=
  ∀ (x y : Nibble) (s : State),
    decodeWord (0x8#4 ++ x ++ y ++ 0x1#4) = .orReg x y ∧ decodeWord (0x8#4 ++ x ++ y ++ 0x2#4) = .andReg x y ∧
    decodeWord (0x8#4 ++ x ++ y ++ 0x3#4) = .xorReg x y ∧
    (∃ t, exec (.orReg x y) s = .next t ∧ t = { s with v := t.v, pc := s.pc + 2 } ∧ SameMemory s t ∧
      (∀ k, (t.reg x).getLsbD k = ((s.reg x).getLsbD k || (s.reg y).getLsbD k)) ∧
      ∀ r, r ≠ x → t.reg r = s.reg r) ∧
    (∃ t, exec (.andReg x y) s = .next t ∧ t = { s with v := t.v, pc := s.pc + 2 } ∧ SameMemory s t ∧
      (∀ k, (t.reg x).getLsbD k = ((s.reg x).getLsbD k && (s.reg y).getLsbD k)) ∧
      ∀ r, r ≠ x → t.reg r = s.reg r) ∧
    (∃ t, exec (.xorReg x y) s = .next t ∧ t = { s with v := t.v, pc := s.pc + 2 } ∧ SameMemory s t ∧
      (∀ k, (t.reg x).getLsbD k = ((s.reg x).getLsbD k != (s.reg y).getLsbD k)) ∧
      ∀ r, r ≠ x → t.reg r = s.reg r)

/-- `8xy4`: the sum modulo 256 to `V[x]`, then the carry to `VF`, which wins when `x` is `F` (R126). -/
def Obligations.AddRegWritesSumThenCarry : Prop :=
  ∀ (x y : Nibble) (s : State),
    decodeWord (0x8#4 ++ x ++ y ++ 0x4#4) = .addReg x y ∧
    ∃ t, exec (.addReg x y) s = .next t ∧ t = { s with v := t.v, pc := s.pc + 2 } ∧ SameMemory s t ∧
      ∀ r, (t.reg r).toNat =
        if r = 0xF then (if (s.reg x).toNat + (s.reg y).toNat > 255 then 1 else 0)
        else if r = x then ((s.reg x).toNat + (s.reg y).toNat) % 256
        else (s.reg r).toNat

/-- `8xy5`: `Vx - Vy` modulo 256 to `V[x]`, then not-borrow to `VF`, which wins when `x` is `F` (R127). -/
def Obligations.SubWritesDifferenceThenNotBorrow : Prop :=
  ∀ (x y : Nibble) (s : State),
    decodeWord (0x8#4 ++ x ++ y ++ 0x5#4) = .sub x y ∧
    ∃ t, exec (.sub x y) s = .next t ∧ t = { s with v := t.v, pc := s.pc + 2 } ∧ SameMemory s t ∧
      ∀ r, ((t.reg r).toNat : Int) =
        if r = 0xF then (if (s.reg x).toNat < (s.reg y).toNat then 0 else 1)
        else if r = x then (((s.reg x).toNat : Int) - (s.reg y).toNat) % 256
        else (s.reg r).toNat

/-- `8xy7`: `Vy - Vx` modulo 256 to `V[x]`, then not-borrow to `VF` (R129; the borrow condition is the spec's inference from
R127 by symmetry). -/
def Obligations.SubnWritesDifferenceThenNotBorrow : Prop :=
  ∀ (x y : Nibble) (s : State),
    decodeWord (0x8#4 ++ x ++ y ++ 0x7#4) = .subn x y ∧
    ∃ t, exec (.subn x y) s = .next t ∧ t = { s with v := t.v, pc := s.pc + 2 } ∧ SameMemory s t ∧
      ∀ r, ((t.reg r).toNat : Int) =
        if r = 0xF then (if (s.reg y).toNat < (s.reg x).toNat then 0 else 1)
        else if r = x then (((s.reg y).toNat : Int) - (s.reg x).toNat) % 256
        else (s.reg r).toNat

/-- `8xy6`: bit 0 of `Vy` to `VF`, then `Vy >> 1` to `V[x]`, which wins when `x` is `F` (R128; the order of the two writes is
the spec's decision D7). -/
def Obligations.ShrWritesFlagThenHalf : Prop :=
  ∀ (x y : Nibble) (s : State),
    decodeWord (0x8#4 ++ x ++ y ++ 0x6#4) = .shr x y ∧
    ∃ t, exec (.shr x y) s = .next t ∧ t = { s with v := t.v, pc := s.pc + 2 } ∧ SameMemory s t ∧
      ∀ r, (t.reg r).toNat =
        if r = x then (s.reg y).toNat / 2 else if r = 0xF then (s.reg y).toNat % 2 else (s.reg r).toNat

/-- `8xyE`: bit 7 of `Vy` to `VF`, then `Vy << 1` modulo 256 to `V[x]`, which wins when `x` is `F` (R130). -/
def Obligations.ShlWritesFlagThenDouble : Prop :=
  ∀ (x y : Nibble) (s : State),
    decodeWord (0x8#4 ++ x ++ y ++ 0xE#4) = .shl x y ∧
    ∃ t, exec (.shl x y) s = .next t ∧ t = { s with v := t.v, pc := s.pc + 2 } ∧ SameMemory s t ∧
      ∀ r, (t.reg r).toNat =
        if r = x then (s.reg y).toNat * 2 % 256 else if r = 0xF then (s.reg y).toNat / 128 else (s.reg r).toNat

/-- Result and flag together are the exact result of the five flag-writing operations, where the destination is not `VF`
(the property of spec/95_test_vectors.md section 2.3, derived there from R126 to R130). -/
def Obligations.FlagAndResultGiveExactValue : Prop :=
  ∀ (x y : Nibble) (s t : State), x ≠ 0xF →
    (exec (.addReg x y) s = .next t →
      (t.reg x).toNat + 256 * (t.reg 0xF).toNat = (s.reg x).toNat + (s.reg y).toNat) ∧
    (exec (.sub x y) s = .next t →
      (t.reg x).toNat + (s.reg y).toNat = (s.reg x).toNat + 256 * (1 - (t.reg 0xF).toNat)) ∧
    (exec (.subn x y) s = .next t →
      (t.reg x).toNat + (s.reg x).toNat = (s.reg y).toNat + 256 * (1 - (t.reg 0xF).toNat)) ∧
    (exec (.shr x y) s = .next t → 2 * (t.reg x).toNat + (t.reg 0xF).toNat = (s.reg y).toNat) ∧
    (exec (.shl x y) s = .next t → (t.reg x).toNat + 256 * (t.reg 0xF).toNat = 2 * (s.reg y).toNat)

/-- `Cxkk`: `V[x]` is the step's draw masked with `kk`, for every value the draw can have (R131; the draw as an input is the
spec's decision D6, its place in the state the model's own, notes/assumptions/3.md). -/
def Obligations.RndMasksTheDraw : Prop :=
  ∀ (x : Nibble) (kk : Byte) (s : State) (draw : Byte),
    decodeWord (0xC#4 ++ x ++ kk) = .rnd x kk ∧
    ∃ t, exec (.rnd x kk) { s with rnd := draw } = .next t ∧
      t = { s with rnd := draw, v := t.v, pc := s.pc + 2 } ∧ SameMemory s t ∧
      (∀ k, (t.reg x).getLsbD k = (draw.getLsbD k && kk.getLsbD k)) ∧
      ∀ r, r ≠ x → t.reg r = s.reg r

/-! ## Index register and memory (spec/43_index_memory.md) -/

/-- `Annn` and `Fx29` write `I` only: the 12-bit address, and five times the whole byte `Vx` (R140, R142). -/
def Obligations.IndexLoadsWriteI : Prop :=
  ∀ (nnn : Addr12) (x : Nibble) (s : State),
    decodeWord (0xA#4 ++ nnn) = .ldI nnn ∧ decodeWord (0xF#4 ++ x ++ 0x29#8) = .ldF x ∧
    (∃ t, exec (.ldI nnn) s = .next t ∧ t = { s with i := t.i, pc := s.pc + 2 } ∧ SameMemory s t ∧
      t.i.toNat = nnn.toNat) ∧
    (∃ t, exec (.ldF x) s = .next t ∧ t = { s with i := t.i, pc := s.pc + 2 } ∧ SameMemory s t ∧
      t.i.toNat = (s.reg x).toNat * 5)

/-- `Fx1E` adds `Vx` to `I` modulo 65536 and writes no flag (R141; no flag is the spec's decision D16). -/
def Obligations.AddIWrapsWithoutFlag : Prop :=
  ∀ (x : Nibble) (s : State),
    decodeWord (0xF#4 ++ x ++ 0x1E#8) = .addI x ∧
    ∃ t, exec (.addI x) s = .next t ∧ t = { s with i := t.i, pc := s.pc + 2 } ∧ SameMemory s t ∧
      t.i.toNat = (s.i.toNat + (s.reg x).toNat) % 65536

/-- `Fx33`: the decimal digits of `Vx` go to `I`, `I + 1`, `I + 2`, `I` is unchanged; when one of the three addresses passes
`0xFFF`, the digits before it are stored and the machine halts with the first offending address latched (R144, R245, R246;
the partial store is the spec's decision D8, notes/assumptions/14.md, the latch its D9, notes/assumptions/6.md). -/
def Obligations.LdBStoresDecimalDigits : Prop :=
  ∀ (x : Nibble) (s : State), Memory.wf s.params.font s.mem →
    decodeWord (0xF#4 ++ x ++ 0x33#8) = .ldB x ∧
    ∃ t, exec (.ldB x) s = .next t ∧
      (∀ k < 3, effAddr s k ≤ 0xFFF → (t.readByte (effAddr s k)).toNat =
        match k with
        | 0 => (s.reg x).toNat / 100
        | 1 => (s.reg x).toNat / 10 % 10
        | _ => (s.reg x).toNat % 10) ∧
      (∀ a, (∀ k < 3, effAddr s k ≠ a) → t.readByte a = s.readByte a) ∧
      (BlockInBounds s 3 → t = { s with mem := t.mem, pc := s.pc + 2 }) ∧
      ∀ a, FirstOffending (effAddr s 0) 3 a →
        t = { s with mem := t.mem, life := .halted, fault := some (.outOfBounds a) }

/-- `Fx55`: `V0` to `Vx` go to `I`, `I + 1`, … ascending and `I` moves past them; when one of the addresses passes `0xFFF`,
the registers before it are stored, `I` and `PC` stay, and the machine halts with the first offending address latched (R145,
R245, R246; the partial store is the spec's decision D8, notes/assumptions/14.md, the latch its D9,
notes/assumptions/6.md). -/
def Obligations.LdMemVxStoresRegisters : Prop :=
  ∀ (x : Nibble) (s : State), Memory.wf s.params.font s.mem →
    decodeWord (0xF#4 ++ x ++ 0x55#8) = .ldMemVx x ∧
    ∃ t, exec (.ldMemVx x) s = .next t ∧
      (∀ r, InGroup r x → effAddr s r.toNat ≤ 0xFFF → t.readByte (effAddr s r.toNat) = s.reg r) ∧
      (∀ a, (∀ r : Nibble, InGroup r x → effAddr s r.toNat ≠ a) → t.readByte a = s.readByte a) ∧
      (BlockInBounds s (x.toNat + 1) →
        t = { s with mem := t.mem, i := t.i, pc := s.pc + 2 } ∧ t.i.toNat = (s.i.toNat + x.toNat + 1) % 65536) ∧
      ∀ a, FirstOffending (effAddr s 0) (x.toNat + 1) a →
        t = { s with mem := t.mem, life := .halted, fault := some (.outOfBounds a) }

/-- `Fx65`: `V0` to `Vx` are loaded from `I`, `I + 1`, … ascending and `I` moves past them, memory and the registers above
`Vx` are unchanged; when one of the addresses passes `0xFFF`, the registers before it are loaded, the others, `I` and `PC`
stay, and the machine halts with the first offending address latched (R146, R245, R246; the partial load is the spec's
decision D8, notes/assumptions/14.md, the latch its D9, notes/assumptions/6.md). -/
def Obligations.LdVxMemLoadsRegisters : Prop :=
  ∀ (x : Nibble) (s : State),
    decodeWord (0xF#4 ++ x ++ 0x65#8) = .ldVxMem x ∧
    ∃ t, exec (.ldVxMem x) s = .next t ∧ SameMemory s t ∧
      (∀ r, InGroup r x → effAddr s r.toNat ≤ 0xFFF → t.reg r = s.readByte (effAddr s r.toNat)) ∧
      (∀ r, ¬(InGroup r x ∧ effAddr s r.toNat ≤ 0xFFF) → t.reg r = s.reg r) ∧
      (BlockInBounds s (x.toNat + 1) →
        t = { s with v := t.v, i := t.i, pc := s.pc + 2 } ∧ t.i.toNat = (s.i.toNat + x.toNat + 1) % 65536) ∧
      ∀ a, FirstOffending (effAddr s 0) (x.toNat + 1) a →
        t = { s with v := t.v, life := .halted, fault := some (.outOfBounds a) }

/-- Storing `V0` to `Vx` and loading them back from the same address reproduces them, whatever the registers held in between
(S12 of spec/95_test_vectors.md, R145, R146). -/
def Obligations.StoreThenLoadReproducesRegisters : Prop :=
  ∀ (x : Nibble) (s : State) (between : Vector Byte 16), Memory.wf s.params.font s.mem →
    BlockInBounds s (x.toNat + 1) →
    ∃ t u, exec (.ldMemVx x) s = .next t ∧ exec (.ldVxMem x) { t with v := between, i := s.i } = .next u ∧
      (∀ r, InGroup r x → u.reg r = s.reg r) ∧ u.i = t.i ∧ SameMemory t u

/-! ## Display (spec/44_display.md) -/

/-- `00E0`: every pixel is unset, nothing else but `PC` changes (R165). -/
def Obligations.ClsClearsEveryPixel : Prop :=
  decodeWord 0x00E0 = .cls ∧
  ∀ s : State, ∃ t, exec .cls s = .next t ∧ t = { s with fb := t.fb, pc := s.pc + 2 } ∧ SameMemory s t ∧
    ∀ py px, t.fb.pixel py px = false

/-- `Dxyn` with its rows in memory: each pixel of the grid is the exclusive or of its old value and the sprite, `VF` is 1
exactly when a set pixel was toggled, and nothing else but `PC` changes (R161, R162, R163, R166; the edge policy is the
parameter `EDGE_WRAP`, the spec's decision D13). -/
def Obligations.DrwXorsSpriteAndFlagsCollision : Prop :=
  ∀ (x y n : Nibble) (s : State),
    decodeWord (0xD#4 ++ x ++ y ++ n) = .drw x y n ∧
    (BlockInBounds s n.toNat →
      ∃ t, exec (.drw x y n) s = .next t ∧ t = { s with fb := t.fb, v := t.v, pc := s.pc + 2 } ∧ SameMemory s t ∧
        (∀ r, r ≠ 0xF → t.reg r = s.reg r) ∧
        (∀ py < 32, ∀ px < 64,
          (SpriteCovers s x y n py px → t.fb.pixel py px = !s.fb.pixel py px) ∧
          (¬SpriteCovers s x y n py px → t.fb.pixel py px = s.fb.pixel py px)) ∧
        ((∃ py < 32, ∃ px < 64, SpriteCovers s x y n py px ∧ s.fb.pixel py px = true) → t.reg 0xF = 1) ∧
        (¬(∃ py < 32, ∃ px < 64, SpriteCovers s x y n py px ∧ s.fb.pixel py px = true) → t.reg 0xF = 0))

/-- `Dxyn` with a row outside memory halts with the first offending address latched and draws nothing, `VF` and `PC` stay
(R166, R246: the rows are read before any pixel changes, the spec's inference, and the latch is its decision D9). -/
def Obligations.DrwOutOfBoundsDrawsNothing : Prop :=
  ∀ (x y n : Nibble) (s : State) (a : Nat), FirstOffending (effAddr s 0) n.toNat a →
    exec (.drw x y n) s = .next { s with life := .halted, fault := some (.outOfBounds a) }

/-- Drawing the same sprite twice at the same coordinates restores every pixel, and the second draw reports a collision
exactly when the first one set a pixel (R162; S7 of spec/95_test_vectors.md). -/
def Obligations.DrawingTwiceRestoresFrame : Prop :=
  ∀ (x y n : Nibble) (s : State), BlockInBounds s n.toNat →
    ∃ t u, exec (.drw x y n) s = .next t ∧ exec (.drw x y n) { t with v := s.v, pc := s.pc } = .next u ∧
      u.fb = s.fb ∧
      ((∃ py < 32, ∃ px < 64, s.fb.pixel py px = false ∧ t.fb.pixel py px = true) → u.reg 0xF = 1) ∧
      (¬(∃ py < 32, ∃ px < 64, s.fb.pixel py px = false ∧ t.fb.pixel py px = true) → u.reg 0xF = 0)

/-! ## Keypad (spec/45_keypad.md) -/

/-- `Ex9E` and `ExA1` skip on the level of the key `Vx`, a key above 15 being not pressed, and change only `PC` (R183,
R184). -/
def Obligations.KeySkipsTestTheLevel : Prop :=
  ∀ (x : Nibble) (s : State),
    decodeWord (0xE#4 ++ x ++ 0x9E#8) = .skp x ∧ decodeWord (0xE#4 ++ x ++ 0xA1#8) = .sknp x ∧
    (∀ h : (s.reg x).toNat < 16,
      exec (.skp x) s = .next { s with pc := if s.key[(s.reg x).toNat] = true then s.pc + 4 else s.pc + 2 } ∧
      exec (.sknp x) s = .next { s with pc := if s.key[(s.reg x).toNat] = true then s.pc + 2 else s.pc + 4 }) ∧
    (15 < (s.reg x).toNat →
      exec (.skp x) s = .next { s with pc := s.pc + 2 } ∧ exec (.sknp x) s = .next { s with pc := s.pc + 4 })

/-- `Fx0A` enters the wait and does nothing else: `PC`, `Vx` and the keys stay (R185). -/
def Obligations.LdVxKEntersTheWait : Prop :=
  ∀ (x : Nibble) (s : State),
    decodeWord (0xF#4 ++ x ++ 0x0A#8) = .ldVxK x ∧ exec (.ldVxK x) s = .next { s with await := true }

/-- `setKeyState` with a key above 15 is rejected as `InvalidKey` and changes no state (R243). -/
def Obligations.InvalidKeyChangesNothing : Prop :=
  ∀ (key : Nat) (pressed tickDue : Bool) (s : State), key > 15 →
    performOp (.setKeyState key pressed tickDue) s = .next s ∧
    hostReply (.setKeyState key pressed tickDue) s s = .invalidKey

/-- A fresh press while a running machine awaits a key completes the `Fx0A`: this operation's tick, the key's number to the
register the word at `PC` names, the wait over, `PC` advanced once; a second press or a release changes the keypad only
(R181, R186, R187; taking the register from the re-fetched word is the spec's decision D17). -/
def Obligations.FreshPressResolvesOnce : Prop :=
  ∀ (key : Nat) (hk : key < 16) (tickDue : Bool) (s : State), s.life = .running → s.await = true →
    s.key[key] = false → s.pc.toNat ≤ 0xFFE →
    ∃ t, performOp (.setKeyState key true tickDue) s = .next t ∧
      t = { s with key := t.key, v := t.v, await := false, pc := s.pc + 2, dt := t.dt, st := t.st } ∧
      (∀ r, (t.reg r).toNat = if r.toNat = (wordAtPc s).toNat / 256 % 16 then key else (s.reg r).toNat) ∧
      (∀ (k : Nat) (h : k < 16), t.key[k] = if k = key then true else s.key[k]) ∧
      t.dt.toNat = (if tickDue then s.dt.toNat - 1 else s.dt.toNat) ∧
      t.st.toNat = (if tickDue then s.st.toNat - 1 else s.st.toNat) ∧
      ∀ (key2 : Nat) (pressed2 tickDue2 : Bool), ∃ u,
        performOp (.setKeyState key2 pressed2 tickDue2) t = .next u ∧ u = { t with key := u.key }

/-- A key event that is no fresh press, or that finds the machine not running or not waiting, changes that key's level only
(R181, R187; the case of a machine not running is the spec's decision D18). -/
def Obligations.OtherKeyEventsChangeTheLevelOnly : Prop :=
  ∀ (key : Nat) (hk : key < 16) (pressed tickDue : Bool) (s : State),
    (pressed = false ∨ s.key[key] = true ∨ s.await = false ∨ s.life ≠ .running) →
    ∃ t, performOp (.setKeyState key pressed tickDue) s = .next t ∧ t = { s with key := t.key } ∧
      ∀ (k : Nat) (h : k < 16), t.key[k] = if k = key then pressed else s.key[k]

/-- Only `reset` and a key press end a wait: no `step`, whatever is in memory, and no other host operation does (R25,
R81, R187). -/
def Obligations.OnlyPressOrResetEndsTheWait : Prop :=
  ∀ (op : HostOp) (s t : State), s.await = true → performOp op s = .next t →
    t.await = true ∨ op = .reset ∨ ∃ key tickDue, op = .setKeyState key true tickDue ∧ s.life = .running

/-! ## Timers (spec/46_timers.md) -/

/-- `Fx07` reads `DT` into `Vx`, `Fx15` writes it, `Fx18` writes `ST`, whose being non-zero is the output `sound_active`;
each changes that and `PC` only (R207, R208, R209; the output is R206 with the spec's decision D25,
notes/assumptions/18.md). -/
def Obligations.TimerMovesWriteTheirTarget : Prop :=
  ∀ (x : Nibble) (s : State),
    decodeWord (0xF#4 ++ x ++ 0x07#8) = .ldVxDt x ∧ decodeWord (0xF#4 ++ x ++ 0x15#8) = .ldDtVx x ∧
    decodeWord (0xF#4 ++ x ++ 0x18#8) = .ldStVx x ∧
    (∃ t, exec (.ldVxDt x) s = .next t ∧ t = { s with v := t.v, pc := s.pc + 2 } ∧ SameMemory s t ∧
      ∀ r, t.reg r = if r = x then s.dt else s.reg r) ∧
    exec (.ldDtVx x) s = .next { s with dt := s.reg x, pc := s.pc + 2 } ∧
    exec (.ldStVx x) s = .next { s with st := s.reg x, pc := s.pc + 2 } ∧
    (soundActive { s with st := s.reg x, pc := s.pc + 2 } = true ↔ 0 < (s.reg x).toNat)

/-! ## The host's operations (spec/49_host_interface.md) and fatal errors (spec/60_exceptions.md) -/

/-- The reset state is the one of R30, with the default parameters of R5 (the values of the timers, `await`, `life` and
`fault` are the spec's decisions D10 and D12; the font and the depth its parameters D20 and D3). -/
def Obligations.ResetStateIsTheSpecs : Prop :=
  (∀ r, State.reset.reg r = 0) ∧ State.reset.i = 0 ∧ State.reset.pc = 0x0200 ∧ State.reset.sp = 0 ∧
  State.reset.stack = List.replicate 16 0 ∧
  (∀ a, State.reset.readByte a = if h : a < 80 then defaultFont[a] else 0) ∧
  (∀ py px, State.reset.fb.pixel py px = false) ∧ (∀ k (h : k < 16), State.reset.key[k] = false) ∧
  State.reset.dt = 0 ∧ State.reset.st = 0 ∧ State.reset.await = false ∧ State.reset.life = .initialized ∧
  State.reset.fault = none

/-- `reset()` from any state gives exactly the reset state of a CORE with the same parameters; only the environment's data,
the model's own, goes on (R215, R270). -/
def Obligations.ResetOperationRestoresResetState : Prop :=
  ∀ s : State, ∃ t, performOp .reset s = .next t ∧
    t = { State.reset with
      params := s.params, stack := List.replicate s.params.stackDepth 0
      rnd := s.rnd, draws := s.draws, inbox := s.inbox } ∧
    ∀ a, t.readByte a = if h : a < 80 then s.params.font[a] else 0

/-- The lifecycle (R216, R217, R218): `start` runs a machine with no latched error and does nothing to one that has one,
`stop` halts a running machine only, and neither changes anything else (these transitions are the spec's decisions D9 and
D10). -/
def Obligations.StartAndStopMoveTheLifecycle : Prop :=
  ∀ s : State,
    performOp .start s = .next { s with life := if s.fault = none then .running else s.life } ∧
    performOp .stop s = .next { s with life := if s.life = .running then .halted else s.life }

/-- The queries change nothing; `getDebugState` answers `PC`, `SP`, `I` and the registers, and `getFrame` the 2048 pixels in
row-major order (R230, R231; the order is the spec's decision D24). -/
def Obligations.QueriesReportAndChangeNothing : Prop :=
  ∀ s : State,
    performOp .getDebugState s = .next s ∧
    hostReply .getDebugState s s = .debug { pc := s.pc, sp := s.sp, i := s.i, v := s.v } ∧
    performOp .getFrame s = .next s ∧
    ∃ bits, hostReply .getFrame s s = .frame bits ∧ bits.length = 2048 ∧
      ∀ py < 32, ∀ px < 64, bits[py * 64 + px]? = some (s.fb.pixel py px)

/-- A latched fatal error is sticky: in a halted machine that has one, every host operation but `reset` leaves it latched and
the machine halted, with its registers and `PC` as they were (R245, R216, R249; the latch is the spec's decision D9). -/
def Obligations.FatalErrorIsStickyUntilReset : Prop :=
  ∀ (op : HostOp) (s : State) (e : FatalError), Halted e s → op ≠ .reset →
    ∃ t, performOp op s = .next t ∧ t = { s with mem := t.mem, key := t.key }

/-- An instruction changes the lifecycle or the fault latch only by meeting a fatal error, which one of `2nnn`, `Dxyn`,
`Fx33`, `Fx55`, `Fx65` can (R26, R240, R241, R242, R245); `PC` and `I` then stay. -/
def Obligations.OnlyFiveInstructionsCanHalt : Prop :=
  ∀ (i : Instr) (s t : State), exec i s = .next t →
    (t.life = s.life ∧ t.fault = s.fault) ∨
    (t.life = .halted ∧ t.pc = s.pc ∧ t.i = s.i ∧
      ((t.fault = some .stackOverflow ∧ ∃ nnn, i = .call nnn) ∨
       ((∃ a, 0xFFF < a ∧ t.fault = some (.outOfBounds a)) ∧
        ((∃ x y n, i = .drw x y n) ∨ (∃ x, i = .ldB x) ∨ (∃ x, i = .ldMemVx x) ∨ ∃ x, i = .ldVxMem x))))

/-! ## Whole-machine rules: what writes each unit (spec/10_state.md) -/

/-- Memory is written only by `Fx33` and `Fx55`, the frame buffer only by `00E0` and `Dxyn`, the stack and `SP` only by
`2nnn` and `00EE`, and no instruction writes a key (R55, R22, R15, R23). -/
def Obligations.EachStoreHasItsWriters : Prop :=
  ∀ (i : Instr) (s t : State), exec i s = .next t →
    ((∀ x, i ≠ .ldB x ∧ i ≠ .ldMemVx x) → SameMemory s t) ∧
    ((i ≠ .cls ∧ ∀ x y n, i ≠ .drw x y n) → t.fb = s.fb) ∧
    ((i ≠ .ret ∧ ∀ nnn, i ≠ .call nnn) → t.stack = s.stack ∧ t.sp = s.sp) ∧
    t.key = s.key

/-- `DT` is written only by `Fx15`, `ST` only by `Fx18`, the wait flag only by `Fx0A`, and `I` only by `Annn`, `Fx1E`,
`Fx29`, `Fx55`, `Fx65` (R24, R25, R12). -/
def Obligations.EachSpecialRegisterHasItsWriters : Prop :=
  ∀ (i : Instr) (s t : State), exec i s = .next t →
    ((∀ x, i ≠ .ldDtVx x) → t.dt = s.dt) ∧
    ((∀ x, i ≠ .ldStVx x) → t.st = s.st) ∧
    ((∀ x, i ≠ .ldVxK x) → t.await = s.await) ∧
    ((∀ nnn x, i ≠ .ldI nnn ∧ i ≠ .addI x ∧ i ≠ .ldF x ∧ i ≠ .ldMemVx x ∧ i ≠ .ldVxMem x) → t.i = s.i)

/-- `VF` is written only by the six instructions of R11's table and by those whose `x` is `F`; the five of the ALU write 0 or
1 there when `x` is not `F` (R11; that no other effect exists is the spec's decision D16). -/
def Obligations.FlagRegisterHasItsWriters : Prop :=
  ∀ (i : Instr) (s t : State), exec i s = .next t →
    let writesFlag := ∃ x y n, i = .addReg x y ∨ i = .sub x y ∨ i = .shr x y ∨ i = .subn x y ∨ i = .shl x y ∨
      i = .drw x y n
    let namesF := ∃ y kk, i = .ldImm 0xF kk ∨ i = .addImm 0xF kk ∨ i = .ldReg 0xF y ∨ i = .orReg 0xF y ∨
      i = .andReg 0xF y ∨ i = .xorReg 0xF y ∨ i = .rnd 0xF kk ∨ i = .ldVxDt 0xF ∨ i = .ldVxMem 0xF
    (¬writesFlag → ¬namesF → t.reg 0xF = s.reg 0xF) ∧
    (∀ x y, x ≠ 0xF → (i = .addReg x y ∨ i = .sub x y ∨ i = .shr x y ∨ i = .subn x y ∨ i = .shl x y) →
      t.reg 0xF = 0 ∨ t.reg 0xF = 1)

/-- `PC` is changed only by a `step`, by the press that ends a wait and by `reset`: `loadProgram`, `start`, `stop` and the
queries leave it, and a `step` that is idle or waits does too (R14, the spec's inference from R215 to R231). -/
def Obligations.PcHasItsWriters : Prop :=
  ∀ (op : HostOp) (s t : State), performOp op s = .next t → t.pc ≠ s.pc →
    op = .reset ∨
    (∃ tickDue rnd, op = .step tickDue rnd ∧ s.life = .running ∧ s.await = false ∧ s.pc.toNat ≤ 0xFFE) ∨
    ∃ key tickDue, op = .setKeyState key true tickDue ∧ s.life = .running ∧ s.await = true ∧ t.pc = s.pc + 2

/-! ## Invariants -/

/-- The reset state is legal. -/
def Obligations.ResetStateIsLegal : Prop := Legal State.reset

/-- Every step of the machine, whatever host operation is pending and whatever the draws, keeps a state legal: registers
within their ranges, `PC` at most `0x10FE`, the stack within its depth, memory in canonical form, and a fatal error latched
only in a halted machine (R13, R15, R31, R218, R27). -/
def Obligations.StepKeepsStateLegal : Prop :=
  ∀ s t : State, Legal s → step s = .next t → Legal t

/-- No step of the machine ever ends in a fault or a refusal: every state has a next state (R80, R245). -/
def Obligations.EveryStateHasANextState : Prop := ∀ s : State, ∃ t, step s = .next t

/-- The machine's step on a state prepared with `withFetchWord` runs the instruction the table's word decodes to, on that
state after this step's draws and tick (the placing of a word stands for a program the host loaded, notes/assumptions/5.md;
the model's own). -/
def Obligations.PlacedWordIsRunNext : Prop :=
  ∀ (s : State) (w : Nat), w < 65536 → Memory.wf s.params.font s.mem →
    ∃ i, decodeTableWord 16 w = some i ∧
      step (s.withFetchWord 16 w) = exec i
        ({ s.withFetchWord 16 w with draws := s.draws + 1, rnd := Config.randomByte s.draws }.tickIf
          (Config.tickDue s.draws))
end

