-- ==== Sys2Proof/Laws/Decode.lean ====
section
/-! SUPPORT. The fields of a word put together from fields, one lemma per field and format, and the decoder on each format. -/

namespace Sys2Proof

/-! ## Numbers behind words -/

theorem append_toNat {m n : Nat} (a : BitVec m) (b : BitVec n) : (a ++ b).toNat = a.toNat * 2 ^ n + b.toNat := by
  rw [BitVec.toNat_append, Nat.shiftLeft_eq, Nat.mul_comm, Nat.two_pow_add_eq_or_of_lt b.isLt]

theorem ofDigits_toNat (a b c d : Nibble) :
    (ofDigits a b c d).toNat = ((a.toNat * 16 + b.toNat) * 16 + c.toNat) * 16 + d.toNat := by
  simp only [ofDigits, append_toNat, Nat.reducePow]

theorem formatXKK_toNat (cl x : Nibble) (kk : Byte) :
    (formatXKK cl x kk).toNat = (cl.toNat * 16 + x.toNat) * 256 + kk.toNat := by
  simp only [formatXKK, append_toNat, Nat.reducePow]

theorem formatNNN_toNat (cl : Nibble) (nnn : Addr12) : (formatNNN cl nnn).toNat = cl.toNat * 4096 + nnn.toNat := by
  simp only [formatNNN, append_toNat, Nat.reducePow]

theorem fieldClass_toNat (w : Word) : (fieldClass w).toNat = w.toNat / 4096 := by
  have := w.isLt
  simp only [fieldClass, BitVec.extractLsb'_toNat, Nat.shiftRight_eq_div_pow]
  omega

theorem fieldX_toNat (w : Word) : (fieldX w).toNat = w.toNat / 256 % 16 := by
  simp only [fieldX, BitVec.extractLsb'_toNat, Nat.shiftRight_eq_div_pow]

theorem fieldY_toNat (w : Word) : (fieldY w).toNat = w.toNat / 16 % 16 := by
  simp only [fieldY, BitVec.extractLsb'_toNat, Nat.shiftRight_eq_div_pow]

theorem fieldN_toNat (w : Word) : (fieldN w).toNat = w.toNat % 16 := by
  simp only [fieldN, BitVec.extractLsb'_toNat, Nat.shiftRight_eq_div_pow]
  omega

theorem fieldKk_toNat (w : Word) : (fieldKk w).toNat = w.toNat % 256 := by
  simp only [fieldKk, BitVec.extractLsb'_toNat, Nat.shiftRight_eq_div_pow]
  omega

theorem fieldNnn_toNat (w : Word) : (fieldNnn w).toNat = w.toNat % 4096 := by
  simp only [fieldNnn, BitVec.extractLsb'_toNat, Nat.shiftRight_eq_div_pow]
  omega

/-! ## Fields of formats -/

section
variable (a b c d : Nibble) (kk : Byte) (nnn : Addr12)

@[simp] theorem fieldClass_ofDigits : fieldClass (ofDigits a b c d) = a := by
  apply BitVec.eq_of_toNat_eq
  have := a.isLt; have := b.isLt; have := c.isLt; have := d.isLt
  rw [fieldClass_toNat, ofDigits_toNat]; omega

@[simp] theorem fieldX_ofDigits : fieldX (ofDigits a b c d) = b := by
  apply BitVec.eq_of_toNat_eq
  have := a.isLt; have := b.isLt; have := c.isLt; have := d.isLt
  rw [fieldX_toNat, ofDigits_toNat]; omega

@[simp] theorem fieldY_ofDigits : fieldY (ofDigits a b c d) = c := by
  apply BitVec.eq_of_toNat_eq
  have := a.isLt; have := b.isLt; have := c.isLt; have := d.isLt
  rw [fieldY_toNat, ofDigits_toNat]; omega

@[simp] theorem fieldN_ofDigits : fieldN (ofDigits a b c d) = d := by
  apply BitVec.eq_of_toNat_eq
  have := a.isLt; have := b.isLt; have := c.isLt; have := d.isLt
  rw [fieldN_toNat, ofDigits_toNat]; omega

@[simp] theorem fieldClass_formatXKK : fieldClass (formatXKK a b kk) = a := by
  apply BitVec.eq_of_toNat_eq
  have := a.isLt; have := b.isLt; have := kk.isLt
  rw [fieldClass_toNat, formatXKK_toNat]; omega

@[simp] theorem fieldX_formatXKK : fieldX (formatXKK a b kk) = b := by
  apply BitVec.eq_of_toNat_eq
  have := a.isLt; have := b.isLt; have := kk.isLt
  rw [fieldX_toNat, formatXKK_toNat]; omega

@[simp] theorem fieldKk_formatXKK : fieldKk (formatXKK a b kk) = kk := by
  apply BitVec.eq_of_toNat_eq
  have := a.isLt; have := b.isLt; have := kk.isLt
  rw [fieldKk_toNat, formatXKK_toNat]; omega

@[simp] theorem fieldClass_formatNNN : fieldClass (formatNNN a nnn) = a := by
  apply BitVec.eq_of_toNat_eq
  have := a.isLt; have := nnn.isLt
  rw [fieldClass_toNat, formatNNN_toNat]; omega

@[simp] theorem fieldNnn_formatNNN : fieldNnn (formatNNN a nnn) = nnn := by
  apply BitVec.eq_of_toNat_eq
  have := a.isLt; have := nnn.isLt
  rw [fieldNnn_toNat, formatNNN_toNat]; omega

end

/-- Splitting a word into its two bytes and joining them again gives the word, in either byte order. -/
@[simp] theorem joinBytes_splitWord (bigEndian : Bool) (w : Word) :
    joinBytes bigEndian (splitWord bigEndian w).1 (splitWord bigEndian w).2 = w := by
  have h : (w.extractLsb' 8 8 ++ w.extractLsb' 0 8 : Word) = w := by
    apply BitVec.eq_of_toNat_eq
    have := w.isLt
    simp only [append_toNat, BitVec.extractLsb'_toNat, Nat.shiftRight_eq_div_pow]
    omega
  cases bigEndian <;> simpa [joinBytes, splitWord] using h

/-! ## Masks, digit by digit -/

theorem append_and {m n : Nat} (a a' : BitVec m) (b b' : BitVec n) :
    (a ++ b) &&& (a' ++ b') = (a &&& a') ++ (b &&& b') := by
  apply BitVec.eq_of_getLsbD_eq
  intro i _
  simp only [BitVec.getLsbD_and, BitVec.getLsbD_append]
  split <;> rfl

theorem and_zeros {n : Nat} (a : BitVec n) : a &&& 0 = 0 := BitVec.and_zero

theorem ofDigits_and (a b c d a' b' c' d' : Nibble) :
    ofDigits a b c d &&& ofDigits a' b' c' d' = ofDigits (a &&& a') (b &&& b') (c &&& c') (d &&& d') := by
  have h := append_and (a ++ b ++ c) (a' ++ b' ++ c') d d'
  rw [append_and (a ++ b) (a' ++ b') c c', append_and a a' b b'] at h
  exact h

theorem formatXKK_and (a b a' b' : Nibble) (kk kk' : Byte) :
    formatXKK a b kk &&& formatXKK a' b' kk' = formatXKK (a &&& a') (b &&& b') (kk &&& kk') := by
  have h := append_and (a ++ b) (a' ++ b') kk kk'
  rw [append_and a a' b b'] at h
  exact h

theorem formatNNN_and (a a' : Nibble) (nnn nnn' : Addr12) :
    formatNNN a nnn &&& formatNNN a' nnn' = formatNNN (a &&& a') (nnn &&& nnn') := by
  exact append_and a a' nnn nnn'

theorem and_allOnes4 (a : Nibble) : a &&& 0xF = a := BitVec.and_allOnes
theorem and_allOnes8 (a : Byte) : a &&& 0xFF = a := BitVec.and_allOnes

/-- A row of format `XY` (mask `0xF00F`) matches every word with its class and function digits. -/
theorem matches_ofDigits (a x y d : Nibble) : ofDigits a x y d &&& 0xF00F = ofDigits a 0 0 d := by
  rw [show (0xF00F : Word) = ofDigits 0xF 0 0 0xF from rfl, ofDigits_and]
  simp only [and_allOnes4, and_zeros]

/-- A row of format `XYN` (mask `0xF000`) matches every word with its class digit. -/
theorem matches_class_ofDigits (a x y d : Nibble) : ofDigits a x y d &&& 0xF000 = ofDigits a 0 0 0 := by
  rw [show (0xF000 : Word) = ofDigits 0xF 0 0 0 from rfl, ofDigits_and]
  simp only [and_allOnes4, and_zeros]

/-- A row of format `XKK` (mask `0xF000`) matches every word with its class digit. -/
theorem matches_class_formatXKK (a x : Nibble) (kk : Byte) : formatXKK a x kk &&& 0xF000 = formatXKK a 0 0 := by
  rw [show (0xF000 : Word) = formatXKK 0xF 0 0 from rfl, formatXKK_and]
  simp only [and_allOnes4, and_zeros]

/-- A row of format `X` (mask `0xF0FF`) matches every word with its class digit and function byte. -/
theorem matches_formatXKK (a x : Nibble) (kk : Byte) : formatXKK a x kk &&& 0xF0FF = formatXKK a 0 kk := by
  rw [show (0xF0FF : Word) = formatXKK 0xF 0 0xFF from rfl, formatXKK_and]
  simp only [and_allOnes4, and_allOnes8, and_zeros]

/-- A row of format `NNN` (mask `0xF000`) matches every word with its class digit. -/
theorem matches_class_formatNNN (a : Nibble) (nnn : Addr12) : formatNNN a nnn &&& 0xF000 = formatNNN a 0 := by
  rw [show (0xF000 : Word) = formatNNN 0xF 0 from rfl, formatNNN_and]
  simp only [and_allOnes4, and_zeros]

end Sys2Proof
end

