-- ==== Sys2Proof/Laws/State.lean ====
section
/-! SUPPORT. One lemma per field and update of State, true by definition, so that no later proof unfolds a record update. -/

namespace Sys2Proof.Machine

@[simp] theorem State.writeByte_params (s : State) (a : Nat) (b : Byte) : (s.writeByte a b).params = s.params := rfl
@[simp] theorem State.writeByte_v (s : State) (a : Nat) (b : Byte) : (s.writeByte a b).v = s.v := rfl
@[simp] theorem State.writeByte_i (s : State) (a : Nat) (b : Byte) : (s.writeByte a b).i = s.i := rfl
@[simp] theorem State.writeByte_pc (s : State) (a : Nat) (b : Byte) : (s.writeByte a b).pc = s.pc := rfl
@[simp] theorem State.writeByte_sp (s : State) (a : Nat) (b : Byte) : (s.writeByte a b).sp = s.sp := rfl
@[simp] theorem State.writeByte_stack (s : State) (a : Nat) (b : Byte) : (s.writeByte a b).stack = s.stack := rfl
@[simp] theorem State.writeByte_mem (s : State) (a : Nat) (b : Byte) : (s.writeByte a b).mem = Memory.write s.params.font s.mem a b := rfl
@[simp] theorem State.writeByte_fb (s : State) (a : Nat) (b : Byte) : (s.writeByte a b).fb = s.fb := rfl
@[simp] theorem State.writeByte_key (s : State) (a : Nat) (b : Byte) : (s.writeByte a b).key = s.key := rfl
@[simp] theorem State.writeByte_dt (s : State) (a : Nat) (b : Byte) : (s.writeByte a b).dt = s.dt := rfl
@[simp] theorem State.writeByte_st (s : State) (a : Nat) (b : Byte) : (s.writeByte a b).st = s.st := rfl
@[simp] theorem State.writeByte_await (s : State) (a : Nat) (b : Byte) : (s.writeByte a b).await = s.await := rfl
@[simp] theorem State.writeByte_life (s : State) (a : Nat) (b : Byte) : (s.writeByte a b).life = s.life := rfl
@[simp] theorem State.writeByte_fault (s : State) (a : Nat) (b : Byte) : (s.writeByte a b).fault = s.fault := rfl
@[simp] theorem State.writeByte_rnd (s : State) (a : Nat) (b : Byte) : (s.writeByte a b).rnd = s.rnd := rfl
@[simp] theorem State.writeByte_draws (s : State) (a : Nat) (b : Byte) : (s.writeByte a b).draws = s.draws := rfl
@[simp] theorem State.writeByte_inbox (s : State) (a : Nat) (b : Byte) : (s.writeByte a b).inbox = s.inbox := rfl

@[simp] theorem State.halt_params (s : State) (e : FatalError) : (s.halt e).params = s.params := rfl
@[simp] theorem State.halt_v (s : State) (e : FatalError) : (s.halt e).v = s.v := rfl
@[simp] theorem State.halt_i (s : State) (e : FatalError) : (s.halt e).i = s.i := rfl
@[simp] theorem State.halt_pc (s : State) (e : FatalError) : (s.halt e).pc = s.pc := rfl
@[simp] theorem State.halt_sp (s : State) (e : FatalError) : (s.halt e).sp = s.sp := rfl
@[simp] theorem State.halt_stack (s : State) (e : FatalError) : (s.halt e).stack = s.stack := rfl
@[simp] theorem State.halt_mem (s : State) (e : FatalError) : (s.halt e).mem = s.mem := rfl
@[simp] theorem State.halt_fb (s : State) (e : FatalError) : (s.halt e).fb = s.fb := rfl
@[simp] theorem State.halt_key (s : State) (e : FatalError) : (s.halt e).key = s.key := rfl
@[simp] theorem State.halt_dt (s : State) (e : FatalError) : (s.halt e).dt = s.dt := rfl
@[simp] theorem State.halt_st (s : State) (e : FatalError) : (s.halt e).st = s.st := rfl
@[simp] theorem State.halt_await (s : State) (e : FatalError) : (s.halt e).await = s.await := rfl
@[simp] theorem State.halt_life (s : State) (e : FatalError) : (s.halt e).life = .halted := rfl
@[simp] theorem State.halt_fault (s : State) (e : FatalError) : (s.halt e).fault = some e := rfl
@[simp] theorem State.halt_rnd (s : State) (e : FatalError) : (s.halt e).rnd = s.rnd := rfl
@[simp] theorem State.halt_draws (s : State) (e : FatalError) : (s.halt e).draws = s.draws := rfl
@[simp] theorem State.halt_inbox (s : State) (e : FatalError) : (s.halt e).inbox = s.inbox := rfl

@[simp] theorem State.setReg_params (s : State) (r : Nibble) (b : Byte) : (s.setReg r b).params = s.params := rfl
@[simp] theorem State.setReg_v (s : State) (r : Nibble) (b : Byte) : (s.setReg r b).v = s.v.set r.toNat b r.isLt := rfl
@[simp] theorem State.setReg_i (s : State) (r : Nibble) (b : Byte) : (s.setReg r b).i = s.i := rfl
@[simp] theorem State.setReg_pc (s : State) (r : Nibble) (b : Byte) : (s.setReg r b).pc = s.pc := rfl
@[simp] theorem State.setReg_sp (s : State) (r : Nibble) (b : Byte) : (s.setReg r b).sp = s.sp := rfl
@[simp] theorem State.setReg_stack (s : State) (r : Nibble) (b : Byte) : (s.setReg r b).stack = s.stack := rfl
@[simp] theorem State.setReg_mem (s : State) (r : Nibble) (b : Byte) : (s.setReg r b).mem = s.mem := rfl
@[simp] theorem State.setReg_fb (s : State) (r : Nibble) (b : Byte) : (s.setReg r b).fb = s.fb := rfl
@[simp] theorem State.setReg_key (s : State) (r : Nibble) (b : Byte) : (s.setReg r b).key = s.key := rfl
@[simp] theorem State.setReg_dt (s : State) (r : Nibble) (b : Byte) : (s.setReg r b).dt = s.dt := rfl
@[simp] theorem State.setReg_st (s : State) (r : Nibble) (b : Byte) : (s.setReg r b).st = s.st := rfl
@[simp] theorem State.setReg_await (s : State) (r : Nibble) (b : Byte) : (s.setReg r b).await = s.await := rfl
@[simp] theorem State.setReg_life (s : State) (r : Nibble) (b : Byte) : (s.setReg r b).life = s.life := rfl
@[simp] theorem State.setReg_fault (s : State) (r : Nibble) (b : Byte) : (s.setReg r b).fault = s.fault := rfl
@[simp] theorem State.setReg_rnd (s : State) (r : Nibble) (b : Byte) : (s.setReg r b).rnd = s.rnd := rfl
@[simp] theorem State.setReg_draws (s : State) (r : Nibble) (b : Byte) : (s.setReg r b).draws = s.draws := rfl
@[simp] theorem State.setReg_inbox (s : State) (r : Nibble) (b : Byte) : (s.setReg r b).inbox = s.inbox := rfl

@[simp] theorem State.setVF_params (s : State) (b : Byte) : (s.setVF b).params = s.params := rfl
@[simp] theorem State.setVF_v (s : State) (b : Byte) : (s.setVF b).v = s.v.set 15 b := rfl
@[simp] theorem State.setVF_i (s : State) (b : Byte) : (s.setVF b).i = s.i := rfl
@[simp] theorem State.setVF_pc (s : State) (b : Byte) : (s.setVF b).pc = s.pc := rfl
@[simp] theorem State.setVF_sp (s : State) (b : Byte) : (s.setVF b).sp = s.sp := rfl
@[simp] theorem State.setVF_stack (s : State) (b : Byte) : (s.setVF b).stack = s.stack := rfl
@[simp] theorem State.setVF_mem (s : State) (b : Byte) : (s.setVF b).mem = s.mem := rfl
@[simp] theorem State.setVF_fb (s : State) (b : Byte) : (s.setVF b).fb = s.fb := rfl
@[simp] theorem State.setVF_key (s : State) (b : Byte) : (s.setVF b).key = s.key := rfl
@[simp] theorem State.setVF_dt (s : State) (b : Byte) : (s.setVF b).dt = s.dt := rfl
@[simp] theorem State.setVF_st (s : State) (b : Byte) : (s.setVF b).st = s.st := rfl
@[simp] theorem State.setVF_await (s : State) (b : Byte) : (s.setVF b).await = s.await := rfl
@[simp] theorem State.setVF_life (s : State) (b : Byte) : (s.setVF b).life = s.life := rfl
@[simp] theorem State.setVF_fault (s : State) (b : Byte) : (s.setVF b).fault = s.fault := rfl
@[simp] theorem State.setVF_rnd (s : State) (b : Byte) : (s.setVF b).rnd = s.rnd := rfl
@[simp] theorem State.setVF_draws (s : State) (b : Byte) : (s.setVF b).draws = s.draws := rfl
@[simp] theorem State.setVF_inbox (s : State) (b : Byte) : (s.setVF b).inbox = s.inbox := rfl

@[simp] theorem State.advance_params (s : State) : (s.advance).params = s.params := rfl
@[simp] theorem State.advance_v (s : State) : (s.advance).v = s.v := rfl
@[simp] theorem State.advance_i (s : State) : (s.advance).i = s.i := rfl
@[simp] theorem State.advance_pc (s : State) : (s.advance).pc = s.pc + 2 := rfl
@[simp] theorem State.advance_sp (s : State) : (s.advance).sp = s.sp := rfl
@[simp] theorem State.advance_stack (s : State) : (s.advance).stack = s.stack := rfl
@[simp] theorem State.advance_mem (s : State) : (s.advance).mem = s.mem := rfl
@[simp] theorem State.advance_fb (s : State) : (s.advance).fb = s.fb := rfl
@[simp] theorem State.advance_key (s : State) : (s.advance).key = s.key := rfl
@[simp] theorem State.advance_dt (s : State) : (s.advance).dt = s.dt := rfl
@[simp] theorem State.advance_st (s : State) : (s.advance).st = s.st := rfl
@[simp] theorem State.advance_await (s : State) : (s.advance).await = s.await := rfl
@[simp] theorem State.advance_life (s : State) : (s.advance).life = s.life := rfl
@[simp] theorem State.advance_fault (s : State) : (s.advance).fault = s.fault := rfl
@[simp] theorem State.advance_rnd (s : State) : (s.advance).rnd = s.rnd := rfl
@[simp] theorem State.advance_draws (s : State) : (s.advance).draws = s.draws := rfl
@[simp] theorem State.advance_inbox (s : State) : (s.advance).inbox = s.inbox := rfl

@[simp] theorem State.skipIf_params (s : State) (c : Bool) : (s.skipIf c).params = s.params := rfl
@[simp] theorem State.skipIf_v (s : State) (c : Bool) : (s.skipIf c).v = s.v := rfl
@[simp] theorem State.skipIf_i (s : State) (c : Bool) : (s.skipIf c).i = s.i := rfl
@[simp] theorem State.skipIf_pc (s : State) (c : Bool) : (s.skipIf c).pc = if c then s.pc + 4 else s.pc + 2 := rfl
@[simp] theorem State.skipIf_sp (s : State) (c : Bool) : (s.skipIf c).sp = s.sp := rfl
@[simp] theorem State.skipIf_stack (s : State) (c : Bool) : (s.skipIf c).stack = s.stack := rfl
@[simp] theorem State.skipIf_mem (s : State) (c : Bool) : (s.skipIf c).mem = s.mem := rfl
@[simp] theorem State.skipIf_fb (s : State) (c : Bool) : (s.skipIf c).fb = s.fb := rfl
@[simp] theorem State.skipIf_key (s : State) (c : Bool) : (s.skipIf c).key = s.key := rfl
@[simp] theorem State.skipIf_dt (s : State) (c : Bool) : (s.skipIf c).dt = s.dt := rfl
@[simp] theorem State.skipIf_st (s : State) (c : Bool) : (s.skipIf c).st = s.st := rfl
@[simp] theorem State.skipIf_await (s : State) (c : Bool) : (s.skipIf c).await = s.await := rfl
@[simp] theorem State.skipIf_life (s : State) (c : Bool) : (s.skipIf c).life = s.life := rfl
@[simp] theorem State.skipIf_fault (s : State) (c : Bool) : (s.skipIf c).fault = s.fault := rfl
@[simp] theorem State.skipIf_rnd (s : State) (c : Bool) : (s.skipIf c).rnd = s.rnd := rfl
@[simp] theorem State.skipIf_draws (s : State) (c : Bool) : (s.skipIf c).draws = s.draws := rfl
@[simp] theorem State.skipIf_inbox (s : State) (c : Bool) : (s.skipIf c).inbox = s.inbox := rfl

@[simp] theorem State.jump_params (s : State) (w : Word) : (s.jump w).params = s.params := rfl
@[simp] theorem State.jump_v (s : State) (w : Word) : (s.jump w).v = s.v := rfl
@[simp] theorem State.jump_i (s : State) (w : Word) : (s.jump w).i = s.i := rfl
@[simp] theorem State.jump_pc (s : State) (w : Word) : (s.jump w).pc = w := rfl
@[simp] theorem State.jump_sp (s : State) (w : Word) : (s.jump w).sp = s.sp := rfl
@[simp] theorem State.jump_stack (s : State) (w : Word) : (s.jump w).stack = s.stack := rfl
@[simp] theorem State.jump_mem (s : State) (w : Word) : (s.jump w).mem = s.mem := rfl
@[simp] theorem State.jump_fb (s : State) (w : Word) : (s.jump w).fb = s.fb := rfl
@[simp] theorem State.jump_key (s : State) (w : Word) : (s.jump w).key = s.key := rfl
@[simp] theorem State.jump_dt (s : State) (w : Word) : (s.jump w).dt = s.dt := rfl
@[simp] theorem State.jump_st (s : State) (w : Word) : (s.jump w).st = s.st := rfl
@[simp] theorem State.jump_await (s : State) (w : Word) : (s.jump w).await = s.await := rfl
@[simp] theorem State.jump_life (s : State) (w : Word) : (s.jump w).life = s.life := rfl
@[simp] theorem State.jump_fault (s : State) (w : Word) : (s.jump w).fault = s.fault := rfl
@[simp] theorem State.jump_rnd (s : State) (w : Word) : (s.jump w).rnd = s.rnd := rfl
@[simp] theorem State.jump_draws (s : State) (w : Word) : (s.jump w).draws = s.draws := rfl
@[simp] theorem State.jump_inbox (s : State) (w : Word) : (s.jump w).inbox = s.inbox := rfl

@[simp] theorem State.tickIf_params (s : State) (d : Bool) : (s.tickIf d).params = s.params := rfl
@[simp] theorem State.tickIf_v (s : State) (d : Bool) : (s.tickIf d).v = s.v := rfl
@[simp] theorem State.tickIf_i (s : State) (d : Bool) : (s.tickIf d).i = s.i := rfl
@[simp] theorem State.tickIf_pc (s : State) (d : Bool) : (s.tickIf d).pc = s.pc := rfl
@[simp] theorem State.tickIf_sp (s : State) (d : Bool) : (s.tickIf d).sp = s.sp := rfl
@[simp] theorem State.tickIf_stack (s : State) (d : Bool) : (s.tickIf d).stack = s.stack := rfl
@[simp] theorem State.tickIf_mem (s : State) (d : Bool) : (s.tickIf d).mem = s.mem := rfl
@[simp] theorem State.tickIf_fb (s : State) (d : Bool) : (s.tickIf d).fb = s.fb := rfl
@[simp] theorem State.tickIf_key (s : State) (d : Bool) : (s.tickIf d).key = s.key := rfl
@[simp] theorem State.tickIf_dt (s : State) (d : Bool) : (s.tickIf d).dt = if d then timerTick s.dt else s.dt := rfl
@[simp] theorem State.tickIf_st (s : State) (d : Bool) : (s.tickIf d).st = if d then timerTick s.st else s.st := rfl
@[simp] theorem State.tickIf_await (s : State) (d : Bool) : (s.tickIf d).await = s.await := rfl
@[simp] theorem State.tickIf_life (s : State) (d : Bool) : (s.tickIf d).life = s.life := rfl
@[simp] theorem State.tickIf_fault (s : State) (d : Bool) : (s.tickIf d).fault = s.fault := rfl
@[simp] theorem State.tickIf_rnd (s : State) (d : Bool) : (s.tickIf d).rnd = s.rnd := rfl
@[simp] theorem State.tickIf_draws (s : State) (d : Bool) : (s.tickIf d).draws = s.draws := rfl
@[simp] theorem State.tickIf_inbox (s : State) (d : Bool) : (s.tickIf d).inbox = s.inbox := rfl

@[simp] theorem State.stepIndex_params (s : State) (x : Nibble) : (s.stepIndex x).params = s.params := rfl
@[simp] theorem State.stepIndex_v (s : State) (x : Nibble) : (s.stepIndex x).v = s.v := rfl
@[simp] theorem State.stepIndex_i (s : State) (x : Nibble) : (s.stepIndex x).i = s.i + BitVec.ofNat 16 (groupSize x) := rfl
@[simp] theorem State.stepIndex_pc (s : State) (x : Nibble) : (s.stepIndex x).pc = s.pc := rfl
@[simp] theorem State.stepIndex_sp (s : State) (x : Nibble) : (s.stepIndex x).sp = s.sp := rfl
@[simp] theorem State.stepIndex_stack (s : State) (x : Nibble) : (s.stepIndex x).stack = s.stack := rfl
@[simp] theorem State.stepIndex_mem (s : State) (x : Nibble) : (s.stepIndex x).mem = s.mem := rfl
@[simp] theorem State.stepIndex_fb (s : State) (x : Nibble) : (s.stepIndex x).fb = s.fb := rfl
@[simp] theorem State.stepIndex_key (s : State) (x : Nibble) : (s.stepIndex x).key = s.key := rfl
@[simp] theorem State.stepIndex_dt (s : State) (x : Nibble) : (s.stepIndex x).dt = s.dt := rfl
@[simp] theorem State.stepIndex_st (s : State) (x : Nibble) : (s.stepIndex x).st = s.st := rfl
@[simp] theorem State.stepIndex_await (s : State) (x : Nibble) : (s.stepIndex x).await = s.await := rfl
@[simp] theorem State.stepIndex_life (s : State) (x : Nibble) : (s.stepIndex x).life = s.life := rfl
@[simp] theorem State.stepIndex_fault (s : State) (x : Nibble) : (s.stepIndex x).fault = s.fault := rfl
@[simp] theorem State.stepIndex_rnd (s : State) (x : Nibble) : (s.stepIndex x).rnd = s.rnd := rfl
@[simp] theorem State.stepIndex_draws (s : State) (x : Nibble) : (s.stepIndex x).draws = s.draws := rfl
@[simp] theorem State.stepIndex_inbox (s : State) (x : Nibble) : (s.stepIndex x).inbox = s.inbox := rfl

@[simp] theorem State.setKey_params (s : State) (k : Nat) (p : Bool) : (s.setKey k p).params = s.params := rfl
@[simp] theorem State.setKey_v (s : State) (k : Nat) (p : Bool) : (s.setKey k p).v = s.v := rfl
@[simp] theorem State.setKey_i (s : State) (k : Nat) (p : Bool) : (s.setKey k p).i = s.i := rfl
@[simp] theorem State.setKey_pc (s : State) (k : Nat) (p : Bool) : (s.setKey k p).pc = s.pc := rfl
@[simp] theorem State.setKey_sp (s : State) (k : Nat) (p : Bool) : (s.setKey k p).sp = s.sp := rfl
@[simp] theorem State.setKey_stack (s : State) (k : Nat) (p : Bool) : (s.setKey k p).stack = s.stack := rfl
@[simp] theorem State.setKey_mem (s : State) (k : Nat) (p : Bool) : (s.setKey k p).mem = s.mem := rfl
@[simp] theorem State.setKey_fb (s : State) (k : Nat) (p : Bool) : (s.setKey k p).fb = s.fb := rfl
@[simp] theorem State.setKey_key (s : State) (k : Nat) (p : Bool) : (s.setKey k p).key = s.key.setIfInBounds k p := rfl
@[simp] theorem State.setKey_dt (s : State) (k : Nat) (p : Bool) : (s.setKey k p).dt = s.dt := rfl
@[simp] theorem State.setKey_st (s : State) (k : Nat) (p : Bool) : (s.setKey k p).st = s.st := rfl
@[simp] theorem State.setKey_await (s : State) (k : Nat) (p : Bool) : (s.setKey k p).await = s.await := rfl
@[simp] theorem State.setKey_life (s : State) (k : Nat) (p : Bool) : (s.setKey k p).life = s.life := rfl
@[simp] theorem State.setKey_fault (s : State) (k : Nat) (p : Bool) : (s.setKey k p).fault = s.fault := rfl
@[simp] theorem State.setKey_rnd (s : State) (k : Nat) (p : Bool) : (s.setKey k p).rnd = s.rnd := rfl
@[simp] theorem State.setKey_draws (s : State) (k : Nat) (p : Bool) : (s.setKey k p).draws = s.draws := rfl
@[simp] theorem State.setKey_inbox (s : State) (k : Nat) (p : Bool) : (s.setKey k p).inbox = s.inbox := rfl

end Sys2Proof.Machine
end

