-- ==== Sys2Proof/Laws/Memory.lean ====
section
/-! SUPPORT. What the memory operations and block transfers do, said once: read after write, the canonical form, and the
whole effect of a block store, a block load and a sprite read, fault included. -/

namespace Sys2Proof.Machine

/-! ## One byte -/

theorem Memory.read_nil (font : Vector Byte 80) (a : Nat) : Memory.read font [] a = unlistedByte font a := rfl

theorem Memory.read_cons (font : Vector Byte 80) (k : Nat) (c : Byte) (m : Memory) (a : Nat) :
    Memory.read font ((k, c) :: m) a = if k = a then c else Memory.read font m a := by
  unfold Memory.read
  rw [Memory.lookup]
  split <;> rfl

/-- Below every listed address memory reads as the reset contents. -/
theorem Memory.read_below (font : Vector Byte 80) (m : Memory) (a : Nat) (h : ∀ c ∈ m, a < c.1) :
    Memory.read font m a = unlistedByte font a := by
  induction m with
  | nil => rfl
  | cons c m ih =>
    obtain ⟨k, c⟩ := c
    have hk : a < k := h (k, c) (by simp)
    rw [Memory.read_cons, if_neg (by omega)]
    exact ih fun d hd => h d (by simp [hd])

theorem Memory.read_consCell (font : Vector Byte 80) (m : Memory) (a : Nat) (b : Byte) (x : Nat)
    (h : ∀ c ∈ m, a < c.1) :
    Memory.read font (Memory.consCell font a b m) x = if a = x then b else Memory.read font m x := by
  unfold Memory.consCell
  by_cases hb : b = unlistedByte font a
  · rw [if_pos hb]
    by_cases hx : a = x
    · subst hx; rw [if_pos rfl, Memory.read_below font m a h, hb]
    · rw [if_neg hx]
  · rw [if_neg hb, Memory.read_cons]

/-- Read after write, at the same place and at every other place. -/
theorem Memory.read_write (font : Vector Byte 80) (m : Memory) (a : Nat) (b : Byte) (x : Nat)
    (h : m.Pairwise (fun c d => c.1 < d.1)) :
    Memory.read font (Memory.write font m a b) x = if a = x then b else Memory.read font m x := by
  induction m with
  | nil => exact Memory.read_consCell font [] a b x (by simp)
  | cons c m ih =>
    obtain ⟨k, c⟩ := c
    rw [List.pairwise_cons] at h
    unfold Memory.write
    split
    · rename_i hak
      refine Memory.read_consCell font _ a b x fun d hd => ?_
      rcases List.mem_cons.mp hd with rfl | hd
      · exact hak
      · exact Nat.lt_trans hak (h.1 d hd)
    · split
      · rename_i _ hak
        subst hak
        rw [Memory.read_consCell font m a b x h.1, Memory.read_cons]
        split <;> rfl
      · rename_i _ hak
        rw [Memory.read_cons, Memory.read_cons, ih h.2]
        by_cases hkx : k = x
        · rw [if_pos hkx, if_pos hkx, if_neg (by omega)]
        · rw [if_neg hkx, if_neg hkx]

theorem Memory.mem_consCell {font : Vector Byte 80} {a : Nat} {b : Byte} {m : Memory} {d : Host.Cell}
    (h : d ∈ Memory.consCell font a b m) : (d = (a, b) ∧ b ≠ unlistedByte font a) ∨ d ∈ m := by
  unfold Memory.consCell at h
  split at h
  · exact .inr h
  · rcases List.mem_cons.mp h with rfl | h
    · exact .inl ⟨rfl, ‹_›⟩
    · exact .inr h

/-- A cell of memory after a write is the written one, not reading as the reset contents, or was there before. -/
theorem Memory.mem_write {font : Vector Byte 80} {m : Memory} {a : Nat} {b : Byte} {d : Host.Cell}
    (h : d ∈ Memory.write font m a b) : (d = (a, b) ∧ b ≠ unlistedByte font a) ∨ d ∈ m := by
  induction m with
  | nil => exact Memory.mem_consCell h
  | cons c m ih =>
    obtain ⟨k, c⟩ := c
    unfold Memory.write at h
    split at h
    · exact Memory.mem_consCell h
    · split at h
      · exact (Memory.mem_consCell h).imp_right fun h => List.mem_cons_of_mem _ h
      · rcases List.mem_cons.mp h with rfl | h
        · exact .inr (by simp)
        · exact (ih h).imp_right fun h => List.mem_cons_of_mem _ h

theorem Memory.pairwise_consCell {font : Vector Byte 80} {a : Nat} {b : Byte} {m : Memory}
    (h : m.Pairwise (fun c d => c.1 < d.1)) (ha : ∀ c ∈ m, a < c.1) :
    (Memory.consCell font a b m).Pairwise (fun c d => c.1 < d.1) := by
  unfold Memory.consCell
  split
  · exact h
  · exact List.pairwise_cons.mpr ⟨ha, h⟩

/-- A write keeps addresses strictly rising. -/
theorem Memory.pairwise_write {font : Vector Byte 80} {m : Memory} {a : Nat} {b : Byte}
    (h : m.Pairwise (fun c d => c.1 < d.1)) : (Memory.write font m a b).Pairwise (fun c d => c.1 < d.1) := by
  induction m with
  | nil => exact Memory.pairwise_consCell h (by simp)
  | cons c m ih =>
    obtain ⟨k, c⟩ := c
    have hc := List.pairwise_cons.mp h
    unfold Memory.write
    split
    · rename_i hak
      refine Memory.pairwise_consCell h fun d hd => ?_
      rcases List.mem_cons.mp hd with rfl | hd
      · exact hak
      · exact Nat.lt_trans hak (hc.1 d hd)
    · split
      · rename_i _ hak
        subst hak
        exact Memory.pairwise_consCell hc.2 hc.1
      · rename_i hlt hak
        refine List.pairwise_cons.mpr ⟨fun d hd => ?_, ih hc.2⟩
        rcases Memory.mem_write hd with ⟨rfl, -⟩ | hd
        · show k < a
          omega
        · exact hc.1 d hd

/-- A write inside the address space keeps the canonical form. -/
theorem Memory.wf_write {font : Vector Byte 80} {m : Memory} {a : Nat} {b : Byte} (h : Memory.wf font m)
    (ha : a ≤ 0xFFF) : Memory.wf font (Memory.write font m a b) := by
  refine ⟨Memory.pairwise_write h.1, fun d hd => ?_⟩
  rcases Memory.mem_write hd with ⟨rfl, hb⟩ | hd
  · exact ⟨ha, hb⟩
  · exact h.2 d hd

/-- Reset memory lists nothing, so it is in canonical form. -/
theorem Memory.wf_nil (font : Vector Byte 80) : Memory.wf font [] := ⟨List.Pairwise.nil, by simp⟩

/-- Reading a byte after storing one. -/
theorem State.readByte_writeByte (s : State) (a : Nat) (b : Byte) (x : Nat)
    (h : s.mem.Pairwise (fun c d => c.1 < d.1)) :
    (s.writeByte a b).readByte x = if a = x then b else s.readByte x :=
  Memory.read_write s.params.font s.mem a b x h

/-- Reading a byte depends on the memory and the font alone. -/
theorem State.readByte_congr {s t : State} (hm : t.mem = s.mem) (hp : t.params = s.params) (a : Nat) :
    t.readByte a = s.readByte a := by
  unfold State.readByte
  rw [hm, hp]

theorem memRead_ok {s : State} {a : Nat} (h : a ≤ 0xFFF) : memRead s a = .ok (s.readByte a) := by
  unfold memRead
  rw [if_neg (by omega)]

theorem memRead_error {s : State} {a : Nat} (h : 0xFFF < a) : memRead s a = .error (.outOfBounds a) := by
  unfold memRead
  rw [if_pos h]

theorem memWrite_ok {s : State} {a : Nat} {b : Byte} (h : a ≤ 0xFFF) : memWrite s a b = .ok (s.writeByte a b) := by
  unfold memWrite
  rw [if_neg (by omega)]

theorem memWrite_error {s : State} {a : Nat} {b : Byte} (h : 0xFFF < a) :
    memWrite s a b = .error (.outOfBounds a) := by
  unfold memWrite
  rw [if_pos h]

/-! ## Blocks -/

/-- The error a block access of `len` bytes at `addr` meets: the first of its addresses above `0xFFF`, if any (R241). -/
def blockError (addr len : Nat) : Option FatalError :=
  if len = 0 ∨ addr + len ≤ 0x1000 then none else some (.outOfBounds (max addr 0x1000))

theorem blockError_succ_in {addr len : Nat} (h : addr ≤ 0xFFF) :
    blockError (addr + 1) len = blockError addr (len + 1) := by
  unfold blockError
  split <;> split
  · rfl
  · omega
  · omega
  · congr 2
    omega

theorem blockError_succ_out {addr len : Nat} (h : 0xFFF < addr) :
    blockError addr (len + 1) = some (.outOfBounds addr) := by
  unfold blockError
  rw [if_neg (by omega), Nat.max_eq_left (by omega)]

/-- A block store writes memory only. -/
theorem storeBytes_frame (bs : List Byte) (s : State) (addr : Nat) :
    (storeBytes s addr bs).1 = { s with mem := (storeBytes s addr bs).1.mem } := by
  induction bs generalizing s addr with
  | nil => rfl
  | cons b bs ih =>
    unfold storeBytes
    by_cases h : addr ≤ 0xFFF
    · rw [memWrite_ok h]
      exact ih (s.writeByte addr b) (addr + 1)
    · rw [memWrite_error (by omega)]

/-- A block store stops with the first offending address, and with nothing when all addresses are in bounds. -/
theorem storeBytes_error (bs : List Byte) (s : State) (addr : Nat) :
    (storeBytes s addr bs).2 = blockError addr bs.length := by
  induction bs generalizing s addr with
  | nil => rfl
  | cons b bs ih =>
    unfold storeBytes
    by_cases h : addr ≤ 0xFFF
    · rw [memWrite_ok h]
      exact (ih (s.writeByte addr b) (addr + 1)).trans (blockError_succ_in h)
    · rw [memWrite_error (by omega)]
      exact (blockError_succ_out (by omega)).symm

/-- A block store keeps addresses rising. -/
theorem storeBytes_pairwise (bs : List Byte) (s : State) (addr : Nat)
    (hs : s.mem.Pairwise (fun c d => c.1 < d.1)) :
    (storeBytes s addr bs).1.mem.Pairwise (fun c d => c.1 < d.1) := by
  induction bs generalizing s addr with
  | nil => exact hs
  | cons b bs ih =>
    unfold storeBytes
    by_cases h : addr ≤ 0xFFF
    · rw [memWrite_ok h]
      exact ih (s.writeByte addr b) (addr + 1) (Memory.pairwise_write hs)
    · rw [memWrite_error (by omega)]
      exact hs

/-- A block store keeps the canonical form. -/
theorem storeBytes_wf (bs : List Byte) (s : State) (addr : Nat) (hs : Memory.wf s.params.font s.mem) :
    Memory.wf s.params.font (storeBytes s addr bs).1.mem := by
  induction bs generalizing s addr with
  | nil => exact hs
  | cons b bs ih =>
    unfold storeBytes
    by_cases h : addr ≤ 0xFFF
    · rw [memWrite_ok h]
      exact ih (s.writeByte addr b) (addr + 1) (Memory.wf_write hs h)
    · rw [memWrite_error (by omega)]
      exact hs

/-- What memory reads as after a block store: the stored bytes at the in-bounds addresses of the block, and every other
address as before. -/
theorem storeBytes_readByte (bs : List Byte) (s : State) (addr x : Nat)
    (hs : s.mem.Pairwise (fun c d => c.1 < d.1)) :
    (storeBytes s addr bs).1.readByte x =
      if addr ≤ x ∧ x < addr + bs.length ∧ x ≤ 0xFFF then (bs[x - addr]?).getD 0 else s.readByte x := by
  induction bs generalizing s addr with
  | nil =>
    rw [if_neg (by simp only [List.length_nil]; omega)]
    rfl
  | cons b bs ih =>
    unfold storeBytes
    by_cases h : addr ≤ 0xFFF
    · rw [memWrite_ok h]
      refine (ih (s.writeByte addr b) (addr + 1) (Memory.pairwise_write hs)).trans ?_
      rw [State.readByte_writeByte s addr b x hs, List.length_cons]
      by_cases hx : addr = x
      · subst hx
        rw [if_neg (by omega), if_pos rfl, if_pos (by omega), Nat.sub_self]
        rfl
      · by_cases hin : addr + 1 ≤ x ∧ x < addr + 1 + bs.length ∧ x ≤ 0xFFF
        · rw [if_pos hin, if_pos (by omega)]
          obtain ⟨k, hk⟩ : ∃ k, x - addr = k + 1 := ⟨x - addr - 1, by omega⟩
          rw [hk, List.getElem?_cons_succ, show x - (addr + 1) = k by omega]
        · rw [if_neg hin, if_neg hx, if_neg (by omega)]
    · rw [memWrite_error (by omega), if_neg (by omega)]

/-- One more register of a block load, its address in bounds. -/
theorem loadRegs_succ_in (count : Nat) (s : State) {addr : Nat} (r : Nat) (h : addr ≤ 0xFFF) :
    loadRegs s addr r (count + 1) =
      loadRegs { s with v := s.v.setIfInBounds r (s.readByte addr) } (addr + 1) (r + 1) count := by
  rw [loadRegs, memRead_ok h]

/-- One more register of a block load, its address out of bounds. -/
theorem loadRegs_succ_out (count : Nat) (s : State) {addr : Nat} (r : Nat) (h : 0xFFF < addr) :
    loadRegs s addr r (count + 1) = (s, some (.outOfBounds addr)) := by
  rw [loadRegs, memRead_error h]

/-- A block load writes registers only. -/
theorem loadRegs_frame (count : Nat) (s : State) (addr r : Nat) :
    (loadRegs s addr r count).1 = { s with v := (loadRegs s addr r count).1.v } := by
  induction count generalizing s addr r with
  | zero => rfl
  | succ count ih =>
    by_cases h : addr ≤ 0xFFF
    · rw [loadRegs_succ_in count s r h]
      exact ih { s with v := s.v.setIfInBounds r (s.readByte addr) } (addr + 1) (r + 1)
    · rw [loadRegs_succ_out count s r (by omega)]

/-- A block load stops with the first offending address, and with nothing when all addresses are in bounds. -/
theorem loadRegs_error (count : Nat) (s : State) (addr r : Nat) :
    (loadRegs s addr r count).2 = blockError addr count := by
  induction count generalizing s addr r with
  | zero => rfl
  | succ count ih =>
    by_cases h : addr ≤ 0xFFF
    · rw [loadRegs_succ_in count s r h]
      exact (ih { s with v := s.v.setIfInBounds r (s.readByte addr) } (addr + 1) (r + 1)).trans (blockError_succ_in h)
    · rw [loadRegs_succ_out count s r (by omega)]
      exact (blockError_succ_out (by omega)).symm

/-- The registers after a block load: those whose address is in bounds hold its byte, every other one is as before. -/
theorem loadRegs_reg (count : Nat) (s : State) (addr r j : Nat) (hj : j < 16) :
    (loadRegs s addr r count).1.v[j] =
      if r ≤ j ∧ j < r + count ∧ addr + (j - r) ≤ 0xFFF then s.readByte (addr + (j - r)) else s.v[j] := by
  induction count generalizing s addr r with
  | zero =>
    rw [if_neg (by omega)]
    rfl
  | succ count ih =>
    by_cases h : addr ≤ 0xFFF
    · rw [loadRegs_succ_in count s r h]
      refine (ih { s with v := s.v.setIfInBounds r (s.readByte addr) } (addr + 1) (r + 1)).trans ?_
      by_cases hr : r = j
      · subst hr
        rw [if_neg (by omega), if_pos (by omega)]
        simp
      · by_cases hin : r + 1 ≤ j ∧ j < r + 1 + count ∧ addr + 1 + (j - (r + 1)) ≤ 0xFFF
        · rw [if_pos hin, if_pos (by omega), show addr + 1 + (j - (r + 1)) = addr + (j - r) by omega]
          rfl
        · rw [if_neg hin, if_neg (by omega)]
          simp [hr]
    · rw [loadRegs_succ_out count s r (by omega), if_neg (by omega)]

/-- Reading a sprite's rows: all of them, or the first offending address. -/
theorem readBytes_eq (count : Nat) (s : State) (addr : Nat) :
    readBytes s addr count =
      match blockError addr count with
      | some e => .error e
      | none => .ok ((List.range count).map fun k => s.readByte (addr + k)) := by
  induction count generalizing addr with
  | zero => rfl
  | succ count ih =>
    unfold readBytes
    by_cases h : addr ≤ 0xFFF
    · rw [memRead_ok h, ih (addr + 1), ← blockError_succ_in h]
      cases blockError (addr + 1) count with
      | some e => rfl
      | none =>
        simp only [List.range_succ_eq_map, List.map_cons, List.map_map, Nat.add_zero]
        congr 2
        apply List.map_congr_left
        intro k _
        simp only [Function.comp, Nat.succ_eq_add_one]
        congr 1
        omega
    · rw [memRead_error (by omega), blockError_succ_out (by omega)]

end Sys2Proof.Machine
end

