-- ==== Sys2Proof/Laws/Ops.lean ====
section
/-! SUPPORT. What the shared operations on registers, stack, timers, fetch and blocks do, said once. -/

namespace Sys2Proof.Machine

/-! ## Registers -/

/-- Reading a register after writing one. -/
@[simp] theorem State.reg_setReg (s : State) (x : Nibble) (b : Byte) (r : Nibble) :
    (s.setReg x b).reg r = if r = x then b else s.reg r := by
  unfold State.reg
  simp only [State.setReg_v, Vector.getElem_set]
  by_cases h : r = x
  · subst h; simp
  · rw [if_neg h, if_neg fun hn => h (BitVec.eq_of_toNat_eq hn.symm)]

/-- `VF` is `V[15]`. -/
theorem State.setVF_eq (s : State) (b : Byte) : s.setVF b = s.setReg 0xF b := rfl

@[simp] theorem State.reg_setVF (s : State) (b : Byte) (r : Nibble) :
    (s.setVF b).reg r = if r = 0xF then b else s.reg r := State.reg_setReg s 0xF b r

@[simp] theorem State.reg_advance (s : State) (r : Nibble) : s.advance.reg r = s.reg r := rfl
@[simp] theorem State.reg_tickIf (s : State) (d : Bool) (r : Nibble) : (s.tickIf d).reg r = s.reg r := rfl
@[simp] theorem State.reg_stepIndex (s : State) (x r : Nibble) : (s.stepIndex x).reg r = s.reg r := rfl
@[simp] theorem State.reg_halt (s : State) (e : FatalError) (r : Nibble) : (s.halt e).reg r = s.reg r := rfl

/-- The bytes of a register group are the registers (R145). -/
theorem regGroup_getElem? (s : State) (x r : Nibble) (h : r.toNat ≤ x.toNat) :
    (regGroup s x)[r.toNat]? = some (s.reg r) := by
  unfold regGroup State.reg
  have hr : r.toNat < 16 := r.isLt
  rw [List.getElem?_take_of_lt (by omega), Vector.getElem?_toList, Vector.getElem?_eq_getElem hr]

theorem regGroup_length (s : State) (x : Nibble) : (regGroup s x).length = x.toNat + 1 := by
  have hx : x.toNat < 16 := x.isLt
  simp only [regGroup, List.length_take, Vector.length_toList]
  omega

/-! ## Timers -/

/-- A tick takes one off, floored at zero (R202). -/
@[simp] theorem timerTick_toNat (t : Byte) : (timerTick t).toNat = t.toNat - 1 := by
  unfold timerTick
  by_cases h : t = 0
  · subst h; rfl
  · have hne : t.toNat ≠ 0 := fun hz => h (BitVec.eq_of_toNat_eq hz)
    have hlt : t.toNat < 256 := t.isLt
    rw [if_neg h, BitVec.toNat_sub]
    show (256 - 1 + t.toNat) % 256 = t.toNat - 1
    omega

theorem tickIf_dt_toNat (s : State) (d : Bool) :
    (s.tickIf d).dt.toNat = if d then s.dt.toNat - 1 else s.dt.toNat := by
  cases d
  · rfl
  · exact timerTick_toNat s.dt

theorem tickIf_st_toNat (s : State) (d : Bool) :
    (s.tickIf d).st.toNat = if d then s.st.toNat - 1 else s.st.toNat := by
  cases d
  · rfl
  · exact timerTick_toNat s.st

/-! ## The stack -/

theorem push_full {s : State} {a : Word} (h : s.params.stackDepth ≤ s.sp.toNat) :
    push s a = .error .stackOverflow := if_pos h

theorem push_room {s : State} {a : Word} (h : s.sp.toNat < s.params.stackDepth) :
    push s a = .ok { s with stack := s.stack.set s.sp.toNat a, sp := s.sp + 1 } := if_neg (by omega)

theorem pop_empty {s : State} (h : s.sp = 0) : pop s = (0, s) := if_pos h

theorem pop_entry {s : State} (h : s.sp ≠ 0) :
    pop s = ((s.stack[s.sp.toNat - 1]?).getD 0, { s with sp := s.sp - 1 }) := if_neg h

/-! ## Fetch -/

theorem joinBytes_eq (s : State) :
    joinBytes s.params.fetchBigEndian (s.readByte s.pc.toNat) (s.readByte (s.pc.toNat + 1)) = wordAtPc s := rfl

/-- Fetch inside memory gives the word at `PC` (R82). -/
theorem fetch_ok {s : State} (h : s.pc.toNat ≤ 0xFFE) : fetch s = .ok (wordAtPc s) := by
  simp only [fetch, memRead_ok (show s.pc.toNat ≤ 0xFFF by omega), memRead_ok (show s.pc.toNat + 1 ≤ 0xFFF by omega),
    joinBytes_eq]

/-- Fetch past memory raises with the first offending address (R82). -/
theorem fetch_error {s : State} (h : 0xFFE < s.pc.toNat) :
    fetch s = .error (.outOfBounds (max s.pc.toNat 0x1000)) := by
  by_cases hp : s.pc.toNat = 0xFFF
  · simp only [fetch, hp]
    rfl
  · simp only [fetch, memRead_error (show 0xFFF < s.pc.toNat by omega),
      Nat.max_eq_left (show 0x1000 ≤ s.pc.toNat by omega)]

/-- The word at `PC` depends on `PC`, memory and the parameters alone. -/
theorem wordAtPc_congr {s t : State} (hm : t.mem = s.mem) (hp : t.params = s.params) (hpc : t.pc = s.pc) :
    wordAtPc t = wordAtPc s := by
  unfold wordAtPc State.readByte
  rw [hm, hp, hpc]

/-! ## Loading a block -/

theorem storeBlock_frame (bytes : List Byte) (s : State) (addr : Nat) :
    storeBlock s addr bytes = { s with mem := (storeBlock s addr bytes).mem } := by
  induction bytes generalizing s addr with
  | nil => rfl
  | cons b bs ih => exact ih (s.writeByte addr b) (addr + 1)

theorem storeBlock_wf (bytes : List Byte) (s : State) (addr : Nat) (hs : Memory.wf s.params.font s.mem)
    (h : addr + bytes.length ≤ 0x1000) : Memory.wf s.params.font (storeBlock s addr bytes).mem := by
  induction bytes generalizing s addr with
  | nil => exact hs
  | cons b bs ih =>
    rw [List.length_cons] at h
    exact ih (s.writeByte addr b) (addr + 1) (Memory.wf_write hs (by omega)) (by omega)

/-- What memory reads as after a block is loaded: the block, and every other address as before. -/
theorem storeBlock_readByte (bytes : List Byte) (s : State) (addr x : Nat)
    (hs : s.mem.Pairwise (fun c d => c.1 < d.1)) :
    (storeBlock s addr bytes).readByte x =
      if addr ≤ x ∧ x < addr + bytes.length then (bytes[x - addr]?).getD 0 else s.readByte x := by
  induction bytes generalizing s addr with
  | nil =>
    rw [if_neg (by simp only [List.length_nil]; omega)]
    rfl
  | cons b bs ih =>
    refine (ih (s.writeByte addr b) (addr + 1) (Memory.pairwise_write hs)).trans ?_
    rw [State.readByte_writeByte s addr b x hs, List.length_cons]
    by_cases hx : addr = x
    · subst hx
      rw [if_neg (by omega), if_pos rfl, if_pos (by omega), Nat.sub_self]
      rfl
    · by_cases hin : addr + 1 ≤ x ∧ x < addr + 1 + bs.length
      · rw [if_pos hin, if_pos (by omega)]
        obtain ⟨k, hk⟩ : ∃ k, x - addr = k + 1 := ⟨x - addr - 1, by omega⟩
        rw [hk, List.getElem?_cons_succ, show x - (addr + 1) = k by omega]
      · rw [if_neg hin, if_neg hx, if_neg (by omega)]

theorem blockError_none {addr len : Nat} : blockError addr len = none ↔ len = 0 ∨ addr + len ≤ 0x1000 := by
  unfold blockError
  split <;> simp_all

theorem blockError_some {addr len : Nat} {e : FatalError} (h : blockError addr len = some e) :
    0x1000 < addr + len ∧ e = .outOfBounds (max addr 0x1000) := by
  unfold blockError at h
  split at h
  · cases h
  · cases h
    exact ⟨by omega, rfl⟩

/-- The first offending address of a block access is the one the access stops with. -/
theorem blockError_eq_of_firstOffending {addr len a : Nat} (h : FirstOffending addr len a) :
    blockError addr len = some (.outOfBounds a) := by
  obtain ⟨h1, h2, h3, h4⟩ := h
  unfold blockError
  rw [if_neg (by omega)]
  congr 2
  by_cases ha : addr = a
  · omega
  · have := h4 (a - 1) (by omega) (by omega)
    omega

end Sys2Proof.Machine
end

