-- ==== Sys2Proof/Laws/Display.lean ====
section
/-! SUPPORT. What a sprite draw does, said once: it toggles a list of distinct places of the grid. -/

namespace Sys2Proof.Machine

/-! ## Pixels -/

/-- A pixel after one was set. -/
theorem Frame.pixel_setPixel (fb : Frame) (y x : Nat) (p : Bool) (y' x' : Nat) (hy : y < 32) (hx : x < 64) :
    (fb.setPixel y x p).pixel y' x' = if y' = y ∧ x' = x then p else fb.pixel y' x' := by
  have hset : fb.setPixel y x p = fb.set y ((fb[y]'hy).set x p hx) hy := dif_pos ⟨hy, hx⟩
  rw [hset]
  unfold Frame.pixel
  by_cases h : y' < 32 ∧ x' < 64
  · rw [dif_pos h, dif_pos h]
    by_cases hyy : y' = y
    · subst hyy
      by_cases hxx : x' = x
      · subst hxx; simp
      · simp [hxx, Ne.symm hxx]
    · simp [hyy, Ne.symm hyy]
  · rw [dif_neg h, dif_neg h, if_neg (by omega)]

/-- Two grids with the same pixels are equal. -/
theorem Frame.ext_pixel {fb gb : Frame} (h : ∀ y < 32, ∀ x < 64, fb.pixel y x = gb.pixel y x) : fb = gb := by
  refine Vector.ext fun y hy => Vector.ext fun x hx => ?_
  have := h y hy x hx
  unfold Frame.pixel at this
  rwa [dif_pos ⟨hy, hx⟩, dif_pos ⟨hy, hx⟩] at this

theorem Frame.pixel_clear (y x : Nat) : Frame.clear.pixel y x = false := by
  unfold Frame.pixel Frame.clear
  split <;> simp

/-! ## A draw as a list of places -/

/-- Toggle one place and note a collision. -/
def toggle (d : Frame × Bool) (p : Nat × Nat) : Frame × Bool :=
  (d.1.setPixel p.1 p.2 (!d.1.pixel p.1 p.2), d.2 || d.1.pixel p.1 p.2)

/-- The places the columns `c` to `c + k - 1` of a row toggle. -/
def columnPlaces (wrap : Bool) (x0 py : Nat) (row : Byte) (c : Nat) : Nat → List (Nat × Nat)
  | 0 => []
  | k + 1 => (if spriteBit row c then (target wrap py (x0 + c)).toList else []) ++ columnPlaces wrap x0 py row (c + 1) k

/-- The places a sprite toggles. -/
def spritePlaces (wrap : Bool) (x0 py : Nat) : List Byte → List (Nat × Nat)
  | [] => []
  | row :: rows => columnPlaces wrap x0 py row 0 8 ++ spritePlaces wrap x0 (py + 1) rows

theorem drawColumns_eq (wrap : Bool) (x0 py : Nat) (row : Byte) (k c : Nat) (d : Frame × Bool) :
    drawColumns wrap x0 py row c k d = (columnPlaces wrap x0 py row c k).foldl toggle d := by
  induction k generalizing c d with
  | zero => rfl
  | succ k ih =>
    rw [drawColumns, columnPlaces, ih, List.foldl_append]
    congr 1
    unfold drawPixel
    split
    · cases target wrap py (x0 + c) <;> rfl
    · rfl

theorem drawRows_eq (wrap : Bool) (x0 : Nat) (rows : List Byte) (py : Nat) (d : Frame × Bool) :
    drawRows wrap x0 py rows d = (spritePlaces wrap x0 py rows).foldl toggle d := by
  induction rows generalizing py d with
  | nil => rfl
  | cons row rows ih => rw [drawRows, spritePlaces, ih, List.foldl_append, drawColumns_eq]

/-- A target lies on the grid, at the sprite pixel's coordinates or their remainders (R163). -/
theorem target_some {wrap : Bool} {py px : Nat} {p : Nat × Nat} :
    target wrap py px = some p ↔
      p.1 < 32 ∧ p.2 < 64 ∧ if wrap then py % 32 = p.1 ∧ px % 64 = p.2 else py = p.1 ∧ px = p.2 := by
  obtain ⟨y, x⟩ := p
  unfold target
  cases wrap
  · simp only [Bool.false_eq_true, if_false]
    split <;> simp <;> omega
  · simp only [if_true, Option.some.injEq, Prod.mk.injEq]
    omega

theorem mem_columnPlaces {wrap : Bool} {x0 py : Nat} {row : Byte} {k c : Nat} {p : Nat × Nat} :
    p ∈ columnPlaces wrap x0 py row c k ↔
      ∃ j, c ≤ j ∧ j < c + k ∧ spriteBit row j = true ∧ target wrap py (x0 + j) = some p := by
  induction k generalizing c with
  | zero => exact ⟨fun h => (List.not_mem_nil h).elim, fun ⟨j, h1, h2, _⟩ => by omega⟩
  | succ k ih =>
    rw [columnPlaces, List.mem_append, ih]
    constructor
    · rintro (h | ⟨j, h1, h2, h3, h4⟩)
      · split at h
        · exact ⟨c, le_refl _, by omega, ‹_›, Option.mem_toList.mp h⟩
        · cases h
      · exact ⟨j, by omega, by omega, h3, h4⟩
    · rintro ⟨j, h1, h2, h3, h4⟩
      by_cases hj : j = c
      · subst hj
        left
        rw [if_pos h3]
        exact Option.mem_toList.mpr h4
      · exact .inr ⟨j, by omega, by omega, h3, h4⟩

theorem mem_spritePlaces {wrap : Bool} {x0 : Nat} {rows : List Byte} {py : Nat} {p : Nat × Nat} :
    p ∈ spritePlaces wrap x0 py rows ↔
      ∃ (r : Nat) (h : r < rows.length), ∃ c < 8, spriteBit rows[r] c = true ∧ target wrap (py + r) (x0 + c) = some p := by
  induction rows generalizing py with
  | nil => exact ⟨fun h => (List.not_mem_nil h).elim, fun ⟨r, h, _⟩ => absurd h (Nat.not_lt_zero r)⟩
  | cons row rows ih =>
    rw [spritePlaces, List.mem_append, mem_columnPlaces, ih]
    constructor
    · rintro (⟨c, _, h2, h3, h4⟩ | ⟨r, h, c, h2, h3, h4⟩)
      · exact ⟨0, by simp, c, by omega, h3, h4⟩
      · refine ⟨r + 1, by simpa using h, c, h2, h3, ?_⟩
        rwa [show py + (r + 1) = py + 1 + r by omega]
    · rintro ⟨r, h, c, h2, h3, h4⟩
      cases r with
      | zero => exact .inl ⟨c, by omega, by omega, h3, h4⟩
      | succ r =>
        refine .inr ⟨r, by simpa using h, c, h2, h3, ?_⟩
        rwa [show py + 1 + r = py + (r + 1) by omega]

theorem columnPlaces_nodup (wrap : Bool) (x0 py : Nat) (row : Byte) (k c : Nat) (hk : k ≤ 64) :
    (columnPlaces wrap x0 py row c k).Nodup := by
  induction k generalizing c with
  | zero => exact List.nodup_nil
  | succ k ih =>
    rw [columnPlaces]
    refine List.Nodup.append ?_ (ih (c + 1) (by omega)) ?_
    · split
      · cases target wrap py (x0 + c) <;> simp
      · exact List.nodup_nil
    · intro p hp hq
      obtain ⟨j, h1, h2, -, h4⟩ := mem_columnPlaces.mp hq
      split at hp
      · have h0 := target_some.mp (Option.mem_toList.mp hp)
        have h5 := target_some.mp h4
        cases wrap <;> simp only [Bool.false_eq_true, if_false, if_true] at h0 h5 <;> omega
      · cases hp

/-- A sprite never toggles a place twice: 8 columns and at most 32 rows do not overlap themselves, wrapped or not (R166). -/
theorem spritePlaces_nodup (wrap : Bool) (x0 : Nat) (rows : List Byte) (py : Nat) (h : rows.length ≤ 32) :
    (spritePlaces wrap x0 py rows).Nodup := by
  induction rows generalizing py with
  | nil => exact List.nodup_nil
  | cons row rows ih =>
    rw [List.length_cons] at h
    rw [spritePlaces]
    refine List.Nodup.append (columnPlaces_nodup wrap x0 py row 8 0 (by omega)) (ih (py + 1) (by omega)) ?_
    intro p hp hq
    obtain ⟨c, -, -, -, h1⟩ := mem_columnPlaces.mp hp
    obtain ⟨r, hr, c', -, -, h2⟩ := mem_spritePlaces.mp hq
    have h3 := target_some.mp h1
    have h4 := target_some.mp h2
    cases wrap <;> simp only [Bool.false_eq_true, if_false, if_true] at h3 h4 <;> omega

/-- Toggling distinct places of the grid flips exactly those pixels. -/
theorem foldl_toggle_pixel (ps : List (Nat × Nat)) (d : Frame × Bool) (hn : ps.Nodup)
    (hg : ∀ p ∈ ps, p.1 < 32 ∧ p.2 < 64) (y x : Nat) :
    (ps.foldl toggle d).1.pixel y x = if (y, x) ∈ ps then !d.1.pixel y x else d.1.pixel y x := by
  induction ps generalizing d with
  | nil => simp
  | cons p ps ih =>
    obtain ⟨py, px⟩ := p
    have hp := hg (py, px) (by simp)
    rw [List.nodup_cons] at hn
    rw [List.foldl_cons, ih _ hn.2 fun q hq => hg q (by simp [hq])]
    unfold toggle
    simp only [Frame.pixel_setPixel d.1 py px _ y x hp.1 hp.2, List.mem_cons, Prod.mk.injEq]
    by_cases h : y = py ∧ x = px
    · obtain ⟨rfl, rfl⟩ := h
      simp [hn.1]
    · simp [h]

/-- Toggling distinct places collides exactly when one of them was set. -/
theorem foldl_toggle_collision (ps : List (Nat × Nat)) (d : Frame × Bool) (hn : ps.Nodup)
    (hg : ∀ p ∈ ps, p.1 < 32 ∧ p.2 < 64) :
    (ps.foldl toggle d).2 = true ↔ d.2 = true ∨ ∃ p ∈ ps, d.1.pixel p.1 p.2 = true := by
  induction ps generalizing d with
  | nil => simp
  | cons p ps ih =>
    obtain ⟨py, px⟩ := p
    have hp := hg (py, px) (by simp)
    rw [List.nodup_cons] at hn
    rw [List.foldl_cons, ih _ hn.2 fun q hq => hg q (by simp [hq])]
    have hrest : (∃ q ∈ ps, (toggle d (py, px)).1.pixel q.1 q.2 = true) ↔ ∃ q ∈ ps, d.1.pixel q.1 q.2 = true := by
      refine exists_congr fun q => and_congr_right fun hq => ?_
      have hne : ¬(q.1 = py ∧ q.2 = px) := fun h => hn.1 (by rw [← h.1, ← h.2]; exact hq)
      unfold toggle
      simp only [Frame.pixel_setPixel d.1 py px _ q.1 q.2 hp.1 hp.2, if_neg hne]
    rw [hrest]
    simp only [toggle, Bool.or_eq_true, List.mem_cons, exists_eq_or_imp, or_assoc]

theorem spritePlaces_onGrid {wrap : Bool} {x0 py : Nat} {rows : List Byte} {p : Nat × Nat}
    (h : p ∈ spritePlaces wrap x0 py rows) : p.1 < 32 ∧ p.2 < 64 := by
  obtain ⟨r, hr, c, -, -, ht⟩ := mem_spritePlaces.mp h
  have := target_some.mp ht
  exact ⟨this.1, this.2.1⟩

/-- Every pixel after a draw: flipped when the sprite has a place there, else as before (R162). -/
theorem drawSprite_pixel (wrap : Bool) (fb : Frame) (x0 y0 : Nat) (rows : List Byte) (h : rows.length ≤ 32) (y x : Nat) :
    (drawSprite wrap fb x0 y0 rows).1.pixel y x =
      if (y, x) ∈ spritePlaces wrap x0 y0 rows then !fb.pixel y x else fb.pixel y x := by
  unfold drawSprite
  rw [drawRows_eq]
  exact foldl_toggle_pixel _ _ (spritePlaces_nodup wrap x0 rows y0 h) (fun p hp => spritePlaces_onGrid hp) y x

/-- The collision flag of a draw: some place of the sprite was set before it (R162). -/
theorem drawSprite_collision (wrap : Bool) (fb : Frame) (x0 y0 : Nat) (rows : List Byte) (h : rows.length ≤ 32) :
    (drawSprite wrap fb x0 y0 rows).2 = true ↔ ∃ p ∈ spritePlaces wrap x0 y0 rows, fb.pixel p.1 p.2 = true := by
  unfold drawSprite
  rw [drawRows_eq, foldl_toggle_collision _ _ (spritePlaces_nodup wrap x0 rows y0 h) fun p hp => spritePlaces_onGrid hp]
  simp

end Sys2Proof.Machine
end

