-- ==== Sys2Proof/Laws/Exec.lean ====
section
/-! SUPPORT. The whole effect of the instructions that access memory, said once, and of a step behind its gates. -/

namespace Sys2Proof.Machine

/-- The state after a block access: the instruction completed, or its fatal error entered with `PC` and `I` as they were. -/
def blockOutcome (e : Option FatalError) (completed aborted : State) : State :=
  match e with
  | none => completed
  | some e => aborted.halt e

/-- `Fx33`, its whole effect: the digits that fit are stored, then `PC` advances or the error is entered (R144). -/
theorem execLdB_eq (x : Nibble) (s : State) :
    execLdB x s =
      .next (blockOutcome (blockError (effAddr s 0) 3)
        { s with mem := (storeBytes s (effAddr s 0) (decimalDigits (s.reg x))).1.mem, pc := s.pc + 2 }
        { s with mem := (storeBytes s (effAddr s 0) (decimalDigits (s.reg x))).1.mem }) := by
  have hf := storeBytes_frame (decimalDigits (s.reg x)) s (effAddr s 0)
  have he : (storeBytes s (effAddr s 0) (decimalDigits (s.reg x))).2 = blockError (effAddr s 0) 3 :=
    storeBytes_error (decimalDigits (s.reg x)) s (effAddr s 0)
  rw [← he]
  unfold execLdB
  generalize storeBytes s (effAddr s 0) (decimalDigits (s.reg x)) = st at hf
  obtain ⟨t, e⟩ := st
  cases e <;> (simp only at hf; rw [hf]; rfl)

/-- `Fx55`, its whole effect: the registers that fit are stored, then `I` and `PC` advance or the error is entered
(R145). -/
theorem execLdMemVx_eq (x : Nibble) (s : State) :
    execLdMemVx x s =
      .next (blockOutcome (blockError (effAddr s 0) (x.toNat + 1))
        { s with
          mem := (storeBytes s (effAddr s 0) (regGroup s x)).1.mem
          i := s.i + BitVec.ofNat 16 (x.toNat + 1), pc := s.pc + 2 }
        { s with mem := (storeBytes s (effAddr s 0) (regGroup s x)).1.mem }) := by
  have hf := storeBytes_frame (regGroup s x) s (effAddr s 0)
  have he := storeBytes_error (regGroup s x) s (effAddr s 0)
  rw [regGroup_length] at he
  rw [← he]
  unfold execLdMemVx
  generalize storeBytes s (effAddr s 0) (regGroup s x) = st at hf
  obtain ⟨t, e⟩ := st
  cases e <;> (simp only at hf; rw [hf]; rfl)

/-- `Fx65`, its whole effect: the registers whose byte is in bounds are loaded, then `I` and `PC` advance or the error is
entered (R146). -/
theorem execLdVxMem_eq (x : Nibble) (s : State) :
    execLdVxMem x s =
      .next (blockOutcome (blockError (effAddr s 0) (x.toNat + 1))
        { s with
          v := (loadRegs s (effAddr s 0) 0 (x.toNat + 1)).1.v
          i := s.i + BitVec.ofNat 16 (x.toNat + 1), pc := s.pc + 2 }
        { s with v := (loadRegs s (effAddr s 0) 0 (x.toNat + 1)).1.v }) := by
  have hf := loadRegs_frame (x.toNat + 1) s (effAddr s 0) 0
  have he := loadRegs_error (x.toNat + 1) s (effAddr s 0) 0
  rw [← he]
  unfold execLdVxMem groupSize
  generalize loadRegs s (effAddr s 0) 0 (x.toNat + 1) = st at hf
  obtain ⟨t, e⟩ := st
  cases e <;> (simp only at hf; rw [hf]; rfl)

/-- The rows of a sprite as memory holds them. -/
def spriteRows (s : State) (n : Nibble) : List Byte := (List.range n.toNat).map fun k => s.readByte (effAddr s 0 + k)

/-- The grid and the collision flag of the draw an instruction asks for. -/
def drawOf (s : State) (x y n : Nibble) : Frame × Bool :=
  drawSprite s.params.edgeWrap s.fb (s.reg x).toNat (s.reg y).toNat (spriteRows s n)

/-- `Dxyn`, its whole effect: the draw, the flag and the advance of `PC`, or the error entered with nothing drawn (R166). -/
theorem execDrw_eq (x y n : Nibble) (s : State) :
    execDrw x y n s =
      .next (blockOutcome (blockError (effAddr s 0) n.toNat)
        ({ s with fb := (drawOf s x y n).1 }.setVF (collisionFlag (drawOf s x y n).2)).advance s) := by
  unfold execDrw
  rw [readBytes_eq]
  cases blockError (effAddr s 0) n.toNat <;> rfl

/-- `2nnn`, its whole effect: a push and a jump, or `StackOverflow` entered with nothing pushed (R102). -/
theorem execCall_eq (nnn : Addr12) (s : State) :
    execCall nnn s =
      .next (if s.params.stackDepth ≤ s.sp.toNat then s.halt .stackOverflow
        else { s with stack := s.stack.set s.sp.toNat (s.pc + 2), sp := s.sp + 1, pc := addrOperand nnn }) := by
  unfold execCall
  by_cases h : s.params.stackDepth ≤ s.sp.toNat
  · rw [push_full h, if_pos h]
    rfl
  · rw [push_room (by omega), if_neg h]
    rfl

/-- A block access in bounds meets no error. -/
theorem blockError_of_inBounds {s : State} {len : Nat} (h : BlockInBounds s len) : blockError (effAddr s 0) len = none := by
  rw [blockError_none]
  rcases Nat.eq_zero_or_pos len with hz | hp
  · exact .inl hz
  · have := h (len - 1) (by omega)
    unfold effAddr at *
    omega

/-- What is behind the gates of a step: a fetch past memory enters its error, a wait does nothing, else the instruction at
`PC` executes (R80). -/
theorem fetchExecute_eq (s : State) :
    fetchExecute s =
      if 0xFFE < s.pc.toNat then .next (s.halt (.outOfBounds (max s.pc.toNat 0x1000)))
      else if s.await then .next s else exec (decodeWord (wordAtPc s)) s := by
  unfold fetchExecute
  by_cases h : 0xFFE < s.pc.toNat
  · rw [fetch_error h, if_pos h]
    rfl
  · rw [fetch_ok (by omega), if_neg h]

end Sys2Proof.Machine
end

