-- ==== Sys2Proof/Laws/PerInstr.lean ====
section
/-! SUPPORT. Laws of every instruction as syntax, one lemma per constructor. -/

namespace Sys2Proof.Laws

/-- The word an instruction encodes to is one its own row of the opcode map matches (R63, R64); the default arm has no
row. -/
def EncodesToRow.Statement (i : Instr) : Prop :=
  ∀ r ∈ opcodeRows, r.mnemonic = i.mnemonic → r.matchesWord (encode i) = true

/-- The rows with a given mnemonic are those a filter of the map finds. -/
theorem EncodesToRow.of_filter {i : Instr}
    (h : ∀ r ∈ opcodeRows.filter (fun r => r.mnemonic == i.mnemonic), r.matchesWord (encode i) = true) :
    EncodesToRow.Statement i :=
  fun r hr hm => h r (List.mem_filter.mpr ⟨hr, by simp [hm]⟩)

/-- One row has the mnemonic, and it matches the encoded word. -/
theorem EncodesToRow.of_row {i : Instr} (mask fixed : Word)
    (hf : opcodeRows.filter (fun r => r.mnemonic == i.mnemonic) = [⟨mask, fixed, i.mnemonic⟩])
    (h : encode i &&& mask = fixed) : EncodesToRow.Statement i := by
  refine EncodesToRow.of_filter fun r hr => ?_
  rw [hf, List.mem_singleton] at hr
  rw [hr, OpcodeRow.matchesWord, h, beq_self_eq_true]

theorem EncodesToRow.cls : EncodesToRow.Statement .cls :=
  EncodesToRow.of_row 0xFFFF 0x00E0 rfl rfl

theorem EncodesToRow.ret : EncodesToRow.Statement .ret :=
  EncodesToRow.of_row 0xFFFF 0x00EE rfl rfl

theorem EncodesToRow.jp (nnn : Addr12) : EncodesToRow.Statement (.jp nnn) :=
  EncodesToRow.of_row 0xF000 0x1000 rfl (matches_class_formatNNN _ _)

theorem EncodesToRow.call (nnn : Addr12) : EncodesToRow.Statement (.call nnn) :=
  EncodesToRow.of_row 0xF000 0x2000 rfl (matches_class_formatNNN _ _)

theorem EncodesToRow.seImm (x : Nibble) (kk : Byte) : EncodesToRow.Statement (.seImm x kk) :=
  EncodesToRow.of_row 0xF000 0x3000 rfl (matches_class_formatXKK _ _ _)

theorem EncodesToRow.sneImm (x : Nibble) (kk : Byte) : EncodesToRow.Statement (.sneImm x kk) :=
  EncodesToRow.of_row 0xF000 0x4000 rfl (matches_class_formatXKK _ _ _)

theorem EncodesToRow.seReg (x y : Nibble) : EncodesToRow.Statement (.seReg x y) :=
  EncodesToRow.of_row 0xF00F 0x5000 rfl (matches_ofDigits _ _ _ _)

theorem EncodesToRow.ldImm (x : Nibble) (kk : Byte) : EncodesToRow.Statement (.ldImm x kk) :=
  EncodesToRow.of_row 0xF000 0x6000 rfl (matches_class_formatXKK _ _ _)

theorem EncodesToRow.addImm (x : Nibble) (kk : Byte) : EncodesToRow.Statement (.addImm x kk) :=
  EncodesToRow.of_row 0xF000 0x7000 rfl (matches_class_formatXKK _ _ _)

theorem EncodesToRow.ldReg (x y : Nibble) : EncodesToRow.Statement (.ldReg x y) :=
  EncodesToRow.of_row 0xF00F 0x8000 rfl (matches_ofDigits _ _ _ _)

theorem EncodesToRow.orReg (x y : Nibble) : EncodesToRow.Statement (.orReg x y) :=
  EncodesToRow.of_row 0xF00F 0x8001 rfl (matches_ofDigits _ _ _ _)

theorem EncodesToRow.andReg (x y : Nibble) : EncodesToRow.Statement (.andReg x y) :=
  EncodesToRow.of_row 0xF00F 0x8002 rfl (matches_ofDigits _ _ _ _)

theorem EncodesToRow.xorReg (x y : Nibble) : EncodesToRow.Statement (.xorReg x y) :=
  EncodesToRow.of_row 0xF00F 0x8003 rfl (matches_ofDigits _ _ _ _)

theorem EncodesToRow.addReg (x y : Nibble) : EncodesToRow.Statement (.addReg x y) :=
  EncodesToRow.of_row 0xF00F 0x8004 rfl (matches_ofDigits _ _ _ _)

theorem EncodesToRow.sub (x y : Nibble) : EncodesToRow.Statement (.sub x y) :=
  EncodesToRow.of_row 0xF00F 0x8005 rfl (matches_ofDigits _ _ _ _)

theorem EncodesToRow.shr (x y : Nibble) : EncodesToRow.Statement (.shr x y) :=
  EncodesToRow.of_row 0xF00F 0x8006 rfl (matches_ofDigits _ _ _ _)

theorem EncodesToRow.subn (x y : Nibble) : EncodesToRow.Statement (.subn x y) :=
  EncodesToRow.of_row 0xF00F 0x8007 rfl (matches_ofDigits _ _ _ _)

theorem EncodesToRow.shl (x y : Nibble) : EncodesToRow.Statement (.shl x y) :=
  EncodesToRow.of_row 0xF00F 0x800E rfl (matches_ofDigits _ _ _ _)

theorem EncodesToRow.sneReg (x y : Nibble) : EncodesToRow.Statement (.sneReg x y) :=
  EncodesToRow.of_row 0xF00F 0x9000 rfl (matches_ofDigits _ _ _ _)

theorem EncodesToRow.ldI (nnn : Addr12) : EncodesToRow.Statement (.ldI nnn) :=
  EncodesToRow.of_row 0xF000 0xA000 rfl (matches_class_formatNNN _ _)

theorem EncodesToRow.jpV0 (nnn : Addr12) : EncodesToRow.Statement (.jpV0 nnn) :=
  EncodesToRow.of_row 0xF000 0xB000 rfl (matches_class_formatNNN _ _)

theorem EncodesToRow.rnd (x : Nibble) (kk : Byte) : EncodesToRow.Statement (.rnd x kk) :=
  EncodesToRow.of_row 0xF000 0xC000 rfl (matches_class_formatXKK _ _ _)

theorem EncodesToRow.drw (x y n : Nibble) : EncodesToRow.Statement (.drw x y n) :=
  EncodesToRow.of_row 0xF000 0xD000 rfl (matches_class_ofDigits _ _ _ _)

theorem EncodesToRow.skp (x : Nibble) : EncodesToRow.Statement (.skp x) :=
  EncodesToRow.of_row 0xF0FF 0xE09E rfl (matches_formatXKK _ _ _)

theorem EncodesToRow.sknp (x : Nibble) : EncodesToRow.Statement (.sknp x) :=
  EncodesToRow.of_row 0xF0FF 0xE0A1 rfl (matches_formatXKK _ _ _)

theorem EncodesToRow.ldVxDt (x : Nibble) : EncodesToRow.Statement (.ldVxDt x) :=
  EncodesToRow.of_row 0xF0FF 0xF007 rfl (matches_formatXKK _ _ _)

theorem EncodesToRow.ldVxK (x : Nibble) : EncodesToRow.Statement (.ldVxK x) :=
  EncodesToRow.of_row 0xF0FF 0xF00A rfl (matches_formatXKK _ _ _)

theorem EncodesToRow.ldDtVx (x : Nibble) : EncodesToRow.Statement (.ldDtVx x) :=
  EncodesToRow.of_row 0xF0FF 0xF015 rfl (matches_formatXKK _ _ _)

theorem EncodesToRow.ldStVx (x : Nibble) : EncodesToRow.Statement (.ldStVx x) :=
  EncodesToRow.of_row 0xF0FF 0xF018 rfl (matches_formatXKK _ _ _)

theorem EncodesToRow.addI (x : Nibble) : EncodesToRow.Statement (.addI x) :=
  EncodesToRow.of_row 0xF0FF 0xF01E rfl (matches_formatXKK _ _ _)

theorem EncodesToRow.ldF (x : Nibble) : EncodesToRow.Statement (.ldF x) :=
  EncodesToRow.of_row 0xF0FF 0xF029 rfl (matches_formatXKK _ _ _)

theorem EncodesToRow.ldB (x : Nibble) : EncodesToRow.Statement (.ldB x) :=
  EncodesToRow.of_row 0xF0FF 0xF033 rfl (matches_formatXKK _ _ _)

theorem EncodesToRow.ldMemVx (x : Nibble) : EncodesToRow.Statement (.ldMemVx x) :=
  EncodesToRow.of_row 0xF0FF 0xF055 rfl (matches_formatXKK _ _ _)

theorem EncodesToRow.ldVxMem (x : Nibble) : EncodesToRow.Statement (.ldVxMem x) :=
  EncodesToRow.of_row 0xF0FF 0xF065 rfl (matches_formatXKK _ _ _)

theorem EncodesToRow.unrecognized (w : Word) : EncodesToRow.Statement (.unrecognized w) :=
  EncodesToRow.of_filter fun r hr => absurd (show r ∈ ([] : List OpcodeRow) from hr) List.not_mem_nil

end Sys2Proof.Laws
end

