-- ==== Sys2Proof/Laws/Step.lean ====
section
/-! SUPPORT. What a step and each host operation can do, said once. -/

namespace Sys2Proof.Machine

/-- The state a running step executes in: the draw on its port and this step's tick made (R80, R88). -/
def State.begun (s : State) (tickDue : Bool) (rnd : Byte) : State := { s with rnd := rnd }.tickIf tickDue

/-- A `step` of a running machine, all its outcomes (R80). -/
theorem stepOp_running {s : State} (h : s.life = .running) (tickDue : Bool) (rnd : Byte) :
    stepOp tickDue rnd s =
      if 0xFFE < s.pc.toNat then .next ((s.begun tickDue rnd).halt (.outOfBounds (max s.pc.toNat 0x1000)))
      else if s.await then .next (s.begun tickDue rnd)
      else exec (decodeWord (wordAtPc s)) (s.begun tickDue rnd) := by
  unfold stepOp
  rw [if_pos h]
  exact fetchExecute_eq (s.begun tickDue rnd)

/-- A `step` of a machine that is not running (R91). -/
theorem stepOp_idle {s : State} (h : s.life ≠ .running) (tickDue : Bool) (rnd : Byte) :
    stepOp tickDue rnd s = .next s := if_neg h

/-- What a key event does (R181): rejected, a resolved wait, or the level alone. -/
theorem setKeyStateOp_cases (key : Nat) (pressed tickDue : Bool) (s : State) :
    (15 < key ∧ setKeyStateOp key pressed tickDue s = s) ∨
    (key ≤ 15 ∧ pressed = true ∧ s.keyLevel key = false ∧ s.await = true ∧ s.life = .running ∧
      setKeyStateOp key pressed tickDue s = resolve key tickDue (s.setKey key true)) ∨
    (key ≤ 15 ∧ ¬(pressed = true ∧ s.keyLevel key = false ∧ s.await = true ∧ s.life = .running) ∧
      setKeyStateOp key pressed tickDue s = s.setKey key pressed) := by
  unfold setKeyStateOp
  by_cases hk : key > 15
  · exact .inl ⟨hk, if_pos hk⟩
  · rw [if_neg hk]
    by_cases hc : pressed = true ∧ s.keyLevel key = false ∧ s.await = true ∧ s.life = .running
    · obtain ⟨rfl, h2, h3, h4⟩ := hc
      refine .inr (.inl ⟨by omega, rfl, h2, h3, h4, if_pos ?_⟩)
      simp [h2, h3, h4]
    · refine .inr (.inr ⟨by omega, hc, if_neg ?_⟩)
      simpa [and_assoc] using hc

/-- The completing half of `Fx0A` (R186): the register named at `PC` is loaded and the wait ends, unless `PC` is past memory
(which no run reaches in a wait). -/
theorem resolve_eq (k : Nat) (tickDue : Bool) (s : State) :
    resolve k tickDue s =
      if 0xFFE < s.pc.toNat then (s.tickIf tickDue).halt (.outOfBounds (max s.pc.toNat 0x1000))
      else ({ (s.tickIf tickDue).setReg (fieldX (wordAtPc s)) (BitVec.ofNat 8 k) with await := false } : State).advance := by
  unfold resolve
  by_cases h : 0xFFE < s.pc.toNat
  · rw [if_pos h]
    simp only [fetch_error (show 0xFFE < (s.tickIf tickDue).pc.toNat from h), State.tickIf_pc]
  · rw [if_neg h]
    simp only [fetch_ok (show (s.tickIf tickDue).pc.toNat ≤ 0xFFE from Nat.not_lt.mp h)]
    rfl

end Sys2Proof.Machine
end

