-- ==== Sys2Proof/Tests/Slice0.lean ====
section
/-! SUPPORT. The model's own tests: the well-formedness smoke, words written out from the spec's patterns
(spec/30_encoding.md R64), single steps with the results of spec/95_test_vectors.md, and a witness for the hypotheses of each
statement of Certificates/Slice0/Obligations.lean. -/

namespace Sys2Proof.Tests

open Sys2Proof.Machine

/-! ## Helpers: the start states of spec/95_test_vectors.md -/

/-- A running machine in the reset state but for its life. -/
def running : State := { State.reset with life := .running }

/-- The start state of a vector: running, with the word `w` at `0x200`. -/
def withWord (w : Word) : State := running.storeWordAtPc w

/-- A state with registers set. -/
def withRegs (s : State) (regs : List (Nibble × Byte)) : State := regs.foldl (fun t r => t.setReg r.1 r.2) s

/-- The state after the machine's next step has performed one host operation. -/
def afterOp (op : HostOp) (s : State) : Option State :=
  match step { s with inbox := [op] } with
  | .next t => some t
  | .fault _ => none
  | .refused _ => none

/-- The state after one `step(tick_due = false, rnd = 0x00)`. -/
def after (s : State) : Option State := afterOp (.step false 0) s

/-- Registers of a state, as a list. -/
def regsOf (s : State) (rs : List Nibble) : List Byte := rs.map s.reg

/-- Bytes of memory from an address up, as a list. -/
def bytesOf (s : State) (addr len : Nat) : List Byte := (List.range len).map fun k => s.readByte (addr + k)

/-- A row of pixels, as a list of columns that are set. -/
def setColumns (s : State) (py : Nat) : List Nat := (List.range 64).filter fun px => s.fb.pixel py px

/-- A state whose grid has one pixel set. -/
def withPixel (s : State) (py px : Nat) : State := { s with fb := s.fb.setPixel py px true }

/-- The same machine with the other edge policy. -/
def wrapping (s : State) : State := { s with params := { s.params with edgeWrap := true } }

/-- The start state of the sprite vectors: `D` word at `0x200`, `I = 020C`, sprite bytes there. -/
def spriteState (w : Word) (rows : List Byte) (regs : List (Nibble × Byte)) : State :=
  withRegs { storeBlock (withWord w) 0x20C rows with i := 0x020C } regs

/-! ## Well-formedness: ill-formed terms are refused -/

theorem test_wf_default_arm_word_of_cls : (Instr.unrecognized 0x00E0).wellFormed = false := by decide
theorem test_wf_default_arm_word_of_seReg : (Instr.unrecognized 0x5120).wellFormed = false := by decide
theorem test_wf_default_arm_word_of_ldVxMem : (Instr.unrecognized 0xFF65).wellFormed = false := by decide
theorem test_wf_default_arm_unlisted_word : (Instr.unrecognized 0x5121).wellFormed = true := by decide

/-! ## Decoding: words written digit by digit from the patterns of R64 -/

theorem test_decode_control :
    decodeWord 0x00EE = .ret ∧ decodeWord 0x1ABC = .jp 0xABC ∧ decodeWord 0x2300 = .call 0x300 ∧
    decodeWord 0xBFFF = .jpV0 0xFFF := by decide
theorem test_decode_skips :
    decodeWord 0x3133 = .seImm 1 0x33 ∧ decodeWord 0x4A34 = .sneImm 0xA 0x34 ∧ decodeWord 0x5120 = .seReg 1 2 ∧
    decodeWord 0x9AB0 = .sneReg 0xA 0xB := by decide
theorem test_decode_loads :
    decodeWord 0x6A2F = .ldImm 0xA 0x2F ∧ decodeWord 0x7301 = .addImm 3 1 ∧ decodeWord 0x8120 = .ldReg 1 2 ∧
    decodeWord 0xC30F = .rnd 3 0x0F := by decide
theorem test_decode_alu :
    decodeWord 0x8121 = .orReg 1 2 ∧ decodeWord 0x8122 = .andReg 1 2 ∧ decodeWord 0x8123 = .xorReg 1 2 ∧
    decodeWord 0x8124 = .addReg 1 2 ∧ decodeWord 0x8125 = .sub 1 2 ∧ decodeWord 0x8126 = .shr 1 2 ∧
    decodeWord 0x8127 = .subn 1 2 ∧ decodeWord 0x812E = .shl 1 2 := by decide
theorem test_decode_index_and_memory :
    decodeWord 0xAFFF = .ldI 0xFFF ∧ decodeWord 0xF21E = .addI 2 ∧ decodeWord 0xF029 = .ldF 0 ∧
    decodeWord 0xFE33 = .ldB 0xE ∧ decodeWord 0xF255 = .ldMemVx 2 ∧ decodeWord 0xFF65 = .ldVxMem 0xF := by decide
theorem test_decode_display : decodeWord 0x00E0 = .cls ∧ decodeWord 0xD12F = .drw 1 2 0xF := by decide
theorem test_decode_keypad :
    decodeWord 0xE19E = .skp 1 ∧ decodeWord 0xE1A1 = .sknp 1 ∧ decodeWord 0xF10A = .ldVxK 1 := by decide
theorem test_decode_timers :
    decodeWord 0xF207 = .ldVxDt 2 ∧ decodeWord 0xF015 = .ldDtVx 0 ∧ decodeWord 0xF318 = .ldStVx 3 := by decide
/-- Vectors V-U1 to V-U8: each differs from a pattern in a fixed digit only. -/
theorem test_decode_unrecognized :
    [0x0000, 0x00E1, 0x5121, 0x9121, 0x8018, 0xE09F, 0xF075, 0x0123].all
      (fun w => decide (decodeWord w = .unrecognized w)) = true := by decide
/-- V-H8: the bytes `12 34`, in the two byte orders. -/
theorem test_decode_byte_order :
    decodeBytes true [0x12, 0x34, 0xFF] = .ok (.jp 0x234, [0xFF]) ∧
    decodeBytes false [0x12, 0x34] = .ok (.seImm 4 0x12, []) ∧
    decodeBytes true [0x12] = .error .truncated ∧ decodeBytes true [] = .error .truncated := by decide
theorem test_decode_table_word : decodeTableWord 16 0xD12F = some (.drw 1 2 0xF) := by decide
/-- Encoding, from the same patterns. -/
theorem test_encode :
    encode (.seImm 1 0x33) = 0x3133 ∧ encode (.shl 1 2) = 0x812E ∧ encode (.drw 1 2 0xF) = 0xD12F ∧
    encode (.ldVxMem 0xF) = 0xFF65 ∧ encode (.call 0x300) = 0x2300 ∧ encode (.unrecognized 0x5121) = 0x5121 := by decide

/-! ## Single steps: control transfer -/

/-- V-C3. -/
theorem test_call :
    (after (withWord 0x2300)).map (fun t => (t.pc, t.sp, t.stack[0]?)) = some (0x300, 1, some 0x202) := by decide
/-- V-C17, the seventeenth call: a full stack. -/
theorem test_call_full :
    (after { withWord 0x2200 with sp := 16 }).map (fun t => (t.pc, t.sp, t.life, t.fault)) =
      some (0x200, 16, .halted, some .stackOverflow) := by decide
/-- V-C4. -/
theorem test_ret :
    (after { withWord 0x00EE with sp := 1, stack := 0x206 :: List.replicate 15 0 }).map (fun t => (t.pc, t.sp)) =
      some (0x206, 0) := by decide
/-- V-C5: an empty stack pops `0x0000`, no error. -/
theorem test_ret_empty :
    (after (withWord 0x00EE)).map (fun t => (t.pc, t.sp, t.fault)) = some (0x000, 0, none) := by decide
/-- V-C1. -/
theorem test_jp : (after (withWord 0x1ABC)).map (·.pc) = some 0xABC := by decide
/-- V-C7: the target is not reduced to 12 bits. -/
theorem test_jpV0 : (after (withRegs (withWord 0xBFFF) [(0, 0xFF)])).map (·.pc) = some 0x10FE := by decide
/-- V-C9, V-C10. -/
theorem test_seImm :
    (after (withRegs (withWord 0x3133) [(1, 0x33)])).map (·.pc) = some 0x204 ∧
    (after (withRegs (withWord 0x3134) [(1, 0x33)])).map (·.pc) = some 0x202 := by decide
/-- V-C11, V-C12. -/
theorem test_sneImm :
    (after (withRegs (withWord 0x4133) [(1, 0x33)])).map (·.pc) = some 0x202 ∧
    (after (withRegs (withWord 0x4134) [(1, 0x33)])).map (·.pc) = some 0x204 := by decide
/-- V-C13, V-C14. -/
theorem test_seReg :
    (after (withRegs (withWord 0x5120) [(1, 7), (2, 7)])).map (·.pc) = some 0x204 ∧
    (after (withRegs (withWord 0x5120) [(1, 7), (2, 8)])).map (·.pc) = some 0x202 := by decide
/-- V-C15, V-C16. -/
theorem test_sneReg :
    (after (withRegs (withWord 0x9120) [(1, 7), (2, 8)])).map (·.pc) = some 0x204 ∧
    (after (withRegs (withWord 0x9120) [(1, 7), (2, 7)])).map (·.pc) = some 0x202 := by decide
/-- V-U5: an unrecognized word of class 8. -/
theorem test_unrecognized :
    (after (withRegs (withWord 0x8018) [(0, 1), (1, 2), (0xF, 9)])).map (fun t => (t.pc, regsOf t [0, 1, 0xF])) =
      some (0x202, [1, 2, 9]) := by decide

/-! ## Single steps: registers and ALU -/

/-- V-A1. -/
theorem test_ldImm :
    (after (withWord 0x6A2F)).map (fun t => (t.pc, regsOf t [0xA, 9, 0xB])) = some (0x202, [0x2F, 0, 0]) := by decide
/-- V-A2: wraps, no flag. -/
theorem test_addImm :
    (after (withRegs (withWord 0x7301) [(3, 0xFF), (0xF, 0x55)])).map (regsOf · [3, 0xF]) = some [0x00, 0x55] := by decide
/-- V-A4. -/
theorem test_ldReg : (after (withRegs (withWord 0x8010) [(1, 0x5A)])).map (regsOf · [0, 1]) = some [0x5A, 0x5A] := by
  decide
/-- V-A5: `VF` untouched. -/
theorem test_or :
    (after (withRegs (withWord 0x8011) [(0, 0x0F), (1, 0xF0), (0xF, 7)])).map (regsOf · [0, 0xF]) = some [0xFF, 7] := by
  decide
/-- V-A6. -/
theorem test_and :
    (after (withRegs (withWord 0x8012) [(0, 0x0F), (1, 0xF0), (0xF, 7)])).map (regsOf · [0, 0xF]) = some [0x00, 7] := by
  decide
/-- V-A7. -/
theorem test_xor :
    (after (withRegs (withWord 0x8013) [(0, 0xFF), (1, 0x0F), (0xF, 7)])).map (regsOf · [0, 0xF]) = some [0xF0, 7] := by
  decide
/-- S2 and V-A11 (`y = F`). -/
theorem test_addReg :
    (after (withRegs (withWord 0x8014) [(0, 0xFF), (1, 1)])).map (regsOf · [0, 0xF]) = some [0x00, 1] ∧
    (after (withRegs (withWord 0x80F4) [(0, 0xF0), (0xF, 0x20)])).map (regsOf · [0, 0xF]) = some [0x10, 1] := by decide
/-- V-A10: `x = F`, the flag wins. -/
theorem test_addReg_xF : (after (withRegs (withWord 0x8F14) [(0xF, 0xFF), (1, 1)])).map (·.reg 0xF) = some 1 := by decide
/-- S4 and V-A12 (equal: no borrow). -/
theorem test_sub :
    (after (withRegs (withWord 0x8015) [(0, 1), (1, 2)])).map (regsOf · [0, 0xF]) = some [0xFF, 0] ∧
    (after (withRegs (withWord 0x8015) [(0, 7), (1, 7)])).map (regsOf · [0, 0xF]) = some [0, 1] := by decide
/-- V-A14 and V-A16: `x = F`, the flag wins; `y = F`. -/
theorem test_sub_F :
    (after (withRegs (withWord 0x8F15) [(0xF, 3), (1, 5)])).map (·.reg 0xF) = some 0 ∧
    (after (withRegs (withWord 0x80F5) [(0, 5), (0xF, 9)])).map (regsOf · [0, 0xF]) = some [0xFC, 0] := by decide
/-- V-A17: shifts `Vy`, ignores the old `Vx`. -/
theorem test_shr :
    (after (withRegs (withWord 0x8016) [(0, 0xAA), (1, 5)])).map (regsOf · [0, 1, 0xF]) = some [2, 5, 1] := by decide
/-- V-A20 and V-A21: `x = F`, the result wins; `y = F`. -/
theorem test_shr_F :
    (after (withRegs (withWord 0x8F16) [(1, 5)])).map (·.reg 0xF) = some 2 ∧
    (after (withRegs (withWord 0x80F6) [(0, 0x77), (0xF, 5)])).map (regsOf · [0, 0xF]) = some [2, 1] := by decide
/-- V-A23, V-A24: `Vy - Vx`. -/
theorem test_subn :
    (after (withRegs (withWord 0x8017) [(0, 2), (1, 1)])).map (regsOf · [0, 0xF]) = some [0xFF, 0] ∧
    (after (withRegs (withWord 0x8017) [(0, 1), (1, 2)])).map (regsOf · [0, 0xF]) = some [1, 1] := by decide
/-- V-A27 and V-A28. -/
theorem test_shl :
    (after (withRegs (withWord 0x801E) [(1, 0x81)])).map (regsOf · [0, 1, 0xF]) = some [2, 0x81, 1] ∧
    (after (withRegs (withWord 0x801E) [(1, 0x40)])).map (regsOf · [0, 0xF]) = some [0x80, 0] := by decide
/-- V-A30 and V-A31: `x = F`, the result wins; `y = F`. -/
theorem test_shl_F :
    (after (withRegs (withWord 0x8F1E) [(1, 0x81)])).map (·.reg 0xF) = some 2 ∧
    (after (withRegs (withWord 0x80FE) [(0xF, 0xC0)])).map (regsOf · [0, 0xF]) = some [0x80, 1] := by decide
/-- V-A32. -/
theorem test_rnd : (afterOp (.step false 0xA7) (withWord 0xC30F)).map (·.reg 3) = some 7 := by decide

/-! ## Single steps: index register and memory -/

/-- V-M1. -/
theorem test_ldI : (after (withWord 0xAFFF)).map (fun t => (t.pc, t.i)) = some (0x202, 0x0FFF) := by decide
/-- V-M3: wraps at 16 bits, no flag. -/
theorem test_addI :
    (after (withRegs { withWord 0xF21E with i := 0xFFFF } [(2, 2), (0xF, 7)])).map (fun t => (t.i, t.reg 0xF)) =
      some (0x0001, 7) := by decide
/-- V-M7: the whole byte multiplied. -/
theorem test_ldF : (after (withRegs (withWord 0xF029) [(0, 0xFF)])).map (·.i) = some 0x04FB := by decide
/-- V-M8. -/
theorem test_ldB :
    (after (withRegs { withWord 0xF033 with i := 0x0300 } [(0, 0xFE)])).map (fun t => (bytesOf t 0x2FF 5, t.i)) =
      some ([0, 2, 5, 4, 0], 0x0300) := by decide
/-- V-M15: the digits that fit are stored. -/
theorem test_ldB_partial :
    (after (withRegs { withWord 0xF033 with i := 0x0FFE } [(0, 0xEA)])).map
        (fun t => (bytesOf t 0xFFE 2, t.i, t.pc, t.fault)) =
      some ([2, 3], 0x0FFE, 0x200, some (.outOfBounds 0x1000)) := by decide
/-- V-M9, its second step. -/
theorem test_ldMemVx :
    (after (withRegs { withWord 0xF255 with i := 0x0300 } [(0, 1), (1, 2), (2, 3), (3, 4)])).map
        (fun t => (bytesOf t 0x300 4, t.i, t.pc)) =
      some ([1, 2, 3, 0], 0x0303, 0x202) := by decide
/-- V-M13: partial store. -/
theorem test_ldMemVx_partial :
    (after (withRegs { withWord 0xF255 with i := 0x0FFE } [(0, 0xAA), (1, 0xBB), (2, 0xCC)])).map
        (fun t => (bytesOf t 0xFFE 2, t.i, t.pc, t.life, t.fault)) =
      some ([0xAA, 0xBB], 0x0FFE, 0x200, .halted, some (.outOfBounds 0x1000)) := by decide
/-- V-M11: the font's first 16 bytes. -/
theorem test_ldVxMem :
    (after (withWord 0xFF65)).map (fun t => (t.v.toList, t.i)) =
      some ([0xF0, 0x90, 0x90, 0x90, 0xF0, 0x20, 0x60, 0x20, 0x20, 0x70, 0xF0, 0x10, 0xF0, 0x80, 0xF0, 0xF0],
        0x0010) := by decide
/-- V-M14: partial load. -/
theorem test_ldVxMem_partial :
    (after (withRegs { (withWord 0xF165).writeByte 0xFFF 0x77 with i := 0x0FFF } [(1, 0x55)])).map
        (fun t => (regsOf t [0, 1], t.i, t.pc, t.fault)) =
      some ([0x77, 0x55], 0x0FFF, 0x200, some (.outOfBounds 0x1000)) := by decide

/-! ## Single steps: display -/

/-- V-D1. -/
theorem test_cls :
    (after (withRegs (withPixel (withWord 0x00E0) 5 5) [(0xF, 9)])).map (fun t => (setColumns t 5, t.reg 0xF, t.pc)) =
      some ([], 9, 0x202) := by decide
/-- V-D2, both draws: at the grid's corner, and again over the pixels it set. -/
theorem test_drw_corner :
    (after (spriteState 0xD011 [0xC0] [(0, 0x3E), (1, 0x1F)])).map (fun t => (setColumns t 31, t.reg 0xF, t.pc)) =
      some ([62, 63], 0, 0x202) ∧
    (after (withPixel (withPixel (spriteState 0xD011 [0xC0] [(0, 0x3E), (1, 0x1F)]) 31 62) 31 63)).map
        (fun t => (setColumns t 31, t.reg 0xF)) = some ([], 1) := by decide
/-- V-D3 and V-D4 in both edge policies: clipped by default, wrapped per pixel with `EDGE_WRAP`. -/
theorem test_drw_edges :
    (after (spriteState 0xD011 [0xFF] [(0, 0x3C)])).map (fun t => (setColumns t 0, setColumns t 1)) =
      some ([60, 61, 62, 63], []) ∧
    (after (wrapping (spriteState 0xD011 [0xFF] [(0, 0x3C)]))).map (fun t => (setColumns t 0, setColumns t 1)) =
      some ([0, 1, 2, 3, 60, 61, 62, 63], []) ∧
    (after (spriteState 0xD012 [0xFF, 0xFF] [(1, 0x1F), (2, 0)])).map (fun t => (setColumns t 31, setColumns t 0)) =
      some ([0, 1, 2, 3, 4, 5, 6, 7], []) ∧
    (after (wrapping (spriteState 0xD012 [0xFF, 0xFF] [(1, 0x1F)]))).map (fun t => (setColumns t 31, setColumns t 0)) =
      some ([0, 1, 2, 3, 4, 5, 6, 7], [0, 1, 2, 3, 4, 5, 6, 7]) := by decide

/-! ## Single steps: keypad and timers -/

/-- V-K1, V-K2 and V-K5 (key `0x17` does not exist). -/
theorem test_skp :
    (after (withRegs ((withWord 0xE19E).setKey 7 true) [(1, 7)])).map (·.pc) = some 0x204 ∧
    (after (withRegs (withWord 0xE19E) [(1, 7)])).map (·.pc) = some 0x202 ∧
    (after (withRegs ((withWord 0xE19E).setKey 7 true) [(1, 0x17)])).map (·.pc) = some 0x202 := by decide
/-- V-K3, V-K4 and V-K6. -/
theorem test_sknp :
    (after (withRegs (withWord 0xE1A1) [(1, 7)])).map (·.pc) = some 0x204 ∧
    (after (withRegs ((withWord 0xE1A1).setKey 7 true) [(1, 7)])).map (·.pc) = some 0x202 ∧
    (after (withRegs ((withWord 0xE1A1).setKey 7 true) [(1, 0x17)])).map (·.pc) = some 0x204 := by decide
/-- S9, its first step. -/
theorem test_ldVxK : (after (withWord 0xF00A)).map (fun t => (t.pc, t.await)) = some (0x200, true) := by decide
/-- V-K12: the resolving key event ticks, writes `Vx`, and ends the wait. -/
theorem test_ldVxK_resolved :
    (afterOp (.setKeyState 7 true true) { withWord 0xF10A with await := true, dt := 2 }).map
        (fun t => (t.dt, t.reg 1, t.await, t.pc, t.keyLevel 7)) = some (1, 7, false, 0x202, true) := by decide
/-- V-T3 and V-T4: the ticked value, floored at zero. -/
theorem test_ldVxDt :
    (afterOp (.step true 0) { withWord 0xF207 with dt := 5 }).map (fun t => (t.dt, t.reg 2)) = some (4, 4) ∧
    (afterOp (.step true 0) (withWord 0xF207)).map (fun t => (t.dt, t.reg 2)) = some (0, 0) := by decide
/-- V-T2: the tick first, then the write. -/
theorem test_ldDtVx :
    (afterOp (.step true 0) (withRegs { withWord 0xF015 with dt := 9 } [(0, 0x3C)])).map (·.dt) = some 0x3C := by decide
/-- V-T5. -/
theorem test_ldStVx :
    (after (withRegs (withWord 0xF318) [(3, 2)])).map (fun t => (t.st, soundActive t)) = some (2, true) := by decide

/-! ## The cycle and the host's operations -/

/-- V-C8: the second byte of the fetch is past memory. -/
theorem test_fetch_past_memory :
    (after { running with pc := 0x0FFF }).map (fun t => (t.pc, t.life, t.fault)) =
      some (0x0FFF, .halted, some (.outOfBounds 0x1000)) := by decide
/-- V-H1: nothing runs before `start`; V-T8: no tick in a halted machine. -/
theorem test_step_idle :
    (after State.reset).map (fun t => (t.pc, t.life)) = some (0x200, .initialized) ∧
    (afterOp (.step true 0) { State.reset with life := .halted, dt := 2 }).map (·.dt) = some 2 := by decide
/-- V-H3, V-H4: after a fatal error `start` does nothing and `reset` restores the reset state. -/
theorem test_after_fatal_error :
    (afterOp .start { running with life := .halted, fault := some .stackOverflow }).map (·.life) = some .halted ∧
    (afterOp .reset { withWord 0x6A2F with life := .halted, fault := some .stackOverflow, pc := 0x300 }).map
        (fun t => (t.life, t.fault, t.pc, t.readByte 0x200)) = some (.initialized, none, 0x200, 0) := by decide
/-- V-H5 at its smallest, and V-K7. -/
theorem test_load_and_reject :
    (afterOp (.loadProgram [0x12, 0x34]) State.reset).map (bytesOf · 0x1FF 4) = some [0, 0x12, 0x34, 0] ∧
    hostReply (.setKeyState 16 true false) State.reset State.reset = .invalidKey := by decide
/-- A placed word is the very next instruction, whatever the environment's draws. -/
theorem test_withFetchWord :
    (match step (State.reset.withFetchWord 16 0x6A2F) with
      | .next t => some (t.pc, t.reg 0xA)
      | .fault _ => none
      | .refused _ => none) = some (0x202, 0x2F) := by decide

/-! ## Witnesses: concrete states and operands that meet the hypotheses of the statements

The name after `test_witness_` is the statement's. Where a statement has several clauses over one input, the conjuncts are
values at their boundaries. -/

theorem test_witness_DecodeEncodeAgree :
    (Instr.drw 0xF 0 0xF).wellFormed = true ∧ (Instr.unrecognized 0xFFFF).wellFormed = true := by decide

theorem test_witness_DecodingFollowsOpcodeMap :
    (∃ r ∈ opcodeRows, r.matchesWord 0xFF65 = true) ∧ ∀ r ∈ opcodeRows, r.matchesWord 0xFF66 = false := by decide

theorem test_witness_MemoryReadAndWrite :
    Memory.wf State.reset.params.font State.reset.mem ∧ (0xFFF ≤ 0xFFF) ∧ (0x1000 > 0xFFF) := by decide

theorem test_witness_LoadBlockIsAllOrNothing :
    Memory.wf State.reset.params.font State.reset.mem ∧
    0x200 + (List.replicate 3584 (0x12 : Byte)).length ≤ 0x1000 ∧ 0xFFF + [(0x12 : Byte)].length ≤ 0x1000 ∧
    0x1000 + [(0x12 : Byte)].length > 0x1000 := by
  refine ⟨by decide, ?_, by decide, by decide⟩
  rw [List.length_replicate]

theorem test_witness_FetchReadsTwoBytes :
    ({ running with pc := 0x0FFE } : State).pc.toNat ≤ 0xFFE ∧ ({ running with pc := 0x0FFF } : State).pc.toNat = 0xFFF ∧
    ({ running with pc := 0x1000 } : State).pc.toNat > 0xFFF := by decide

theorem test_witness_StepRunsDecodedInstruction :
    Executing { running with pc := 0x0FFE } ∧ ({ running with pc := 0x0FFE } : State).pc.toNat ≤ 0xFFE ∧
    running.inbox = [] ∧ ({ running with inbox := [.step true 7] } : State).inbox = .step true 7 :: [] := by
  exact ⟨⟨rfl, rfl⟩, by decide, rfl, rfl⟩

theorem test_witness_StepNotRunningIsIdle :
    State.reset.life ≠ .running ∧ ({ State.reset with life := .halted } : State).life ≠ .running ∧
    State.reset.inbox = [] := by decide

/-- Clauses: a tick at zero and at one, an executed timer write, an executed timer read, a wait, a fetch past memory. -/
theorem test_witness_TickComesFirst :
    running.life = .running ∧
    (∃ t, stepOp true 0 { withRegs (withWord 0xF015) [(0, 0x3C)] with dt := 1 } = .next t ∧ t.dt = 0x3C ∧
      decodeWord (wordAtPc (withWord 0xF015)) = .ldDtVx 0) ∧
    (∃ t, stepOp true 0 { withRegs (withWord 0xF018) [(0, 0x3C)] with st := 1 } = .next t ∧ t.st = 0x3C ∧
      decodeWord (wordAtPc (withWord 0xF018)) = .ldStVx 0) ∧
    (∃ t, stepOp true 0 { withWord 0xF207 with dt := 1 } = .next t ∧ t.reg 2 = 0 ∧
      decodeWord (wordAtPc (withWord 0xF207)) = .ldVxDt 2) ∧
    (∃ t, stepOp true 0 { withWord 0xF015 with dt := 1, await := true } = .next t ∧ t.dt = 0) ∧
    ∃ t, stepOp true 0 { running with dt := 1, pc := 0x0FFF } = .next t ∧ t.dt = 0 := by
  exact ⟨rfl, ⟨_, rfl, by decide, by decide⟩, ⟨_, rfl, by decide, by decide⟩, ⟨_, rfl, by decide, by decide⟩,
    ⟨_, rfl, by decide⟩, ⟨_, rfl, by decide⟩⟩

theorem test_witness_WaitingStepExecutesNothing :
    let s : State := { withWord 0xF10A with await := true, dt := 1 }
    s.life = .running ∧ s.await = true ∧ s.pc.toNat ≤ 0xFFE ∧ s.fault = none := by decide

theorem test_witness_FetchOutOfBoundsHalts :
    running.life = .running ∧ 0xFFE < ({ running with pc := 0x0FFF } : State).pc.toNat ∧
    0xFFE < ({ running with pc := 0x10FE } : State).pc.toNat := by decide

theorem test_witness_RetPopsReturnAddress :
    State.reset.sp.toNat = 0 ∧
    (0 < ({ State.reset with sp := 1 } : State).sp.toNat ∧ ({ State.reset with sp := 1 } : State).sp.toNat ≤ 16) ∧
    (0 < ({ State.reset with sp := 16 } : State).sp.toNat ∧
      ({ State.reset with sp := 16 } : State).sp.toNat ≤ State.reset.stack.length) := by decide

theorem test_witness_CallPushesReturnAddress :
    State.reset.stack.length = State.reset.params.stackDepth ∧ State.reset.sp.toNat < State.reset.params.stackDepth ∧
    ({ State.reset with sp := 15 } : State).sp.toNat < State.reset.params.stackDepth := by decide

theorem test_witness_CallOnFullStackOverflows :
    ({ State.reset with sp := 16 } : State).sp.toNat = State.reset.params.stackDepth := by decide

theorem test_witness_CallThenRetReturns :
    State.reset.params.legal ∧ State.reset.stack.length = State.reset.params.stackDepth ∧
    ({ State.reset with sp := 15 } : State).sp.toNat < State.reset.params.stackDepth := by decide

theorem test_witness_FlagAndResultGiveExactValue :
    (0 : Nibble) ≠ 0xF ∧ (∃ t, exec (.addReg 0 1) running = .next t) ∧ (∃ t, exec (.sub 0 1) running = .next t) ∧
    (∃ t, exec (.subn 0 1) running = .next t) ∧ (∃ t, exec (.shr 0 1) running = .next t) ∧
    ∃ t, exec (.shl 0 1) running = .next t :=
  ⟨by decide, ⟨_, rfl⟩, ⟨_, rfl⟩, ⟨_, rfl⟩, ⟨_, rfl⟩, ⟨_, rfl⟩⟩

/-- A state whose `I` is the last address of memory: of a block of two, the first fits and the second does not. -/
def atLastByte : State := { running with i := 0x0FFF }

theorem test_witness_first_offending_second_byte : FirstOffending (effAddr atLastByte 0) 2 0x1000 :=
  ⟨by decide, by decide, by decide, fun b _ h => by omega⟩

/-- The offending address is `I` itself where `I` is already past memory (V-M16). -/
theorem test_witness_first_offending_first_byte : FirstOffending (effAddr { running with i := 0x2000 } 0) 3 0x2000 := by
  refine ⟨by decide, by decide, by decide, fun b h1 h2 => ?_⟩
  have : effAddr { running with i := 0x2000 } 0 = 0x2000 := by decide
  omega

theorem test_witness_LdBStoresDecimalDigits :
    Memory.wf running.params.font running.mem ∧ BlockInBounds { running with i := 0x0FFD } 3 ∧
    FirstOffending (effAddr { running with i := 0x0FFE } 0) 3 0x1000 ∧
    (effAddr { running with i := 0x0FFE } 1 ≤ 0xFFF ∧ ¬effAddr { running with i := 0x0FFE } 2 ≤ 0xFFF) := by
  refine ⟨by decide, by unfold BlockInBounds; decide, ⟨by decide, by decide, by decide, fun b _ h => by omega⟩, ?_⟩
  decide

theorem test_witness_LdMemVxStoresRegisters :
    Memory.wf running.params.font running.mem ∧ BlockInBounds atLastByte ((0 : Nibble).toNat + 1) ∧
    FirstOffending (effAddr atLastByte 0) ((1 : Nibble).toNat + 1) 0x1000 ∧ InGroup 0 0 ∧ InGroup 0xF 0xF ∧
    ¬InGroup 1 0 := by
  refine ⟨by decide, by unfold BlockInBounds; decide, ⟨by decide, by decide, by decide, fun b _ h => by omega⟩, ?_⟩
  unfold InGroup
  decide

theorem test_witness_LdVxMemLoadsRegisters :
    BlockInBounds { running with i := 0x0FF0 } ((0xF : Nibble).toNat + 1) ∧
    FirstOffending (effAddr { running with i := 0x0FF1 } 0) ((0xF : Nibble).toNat + 1) 0x1000 := by
  refine ⟨by unfold BlockInBounds; decide, by decide, by decide, by decide, fun b _ h => by omega⟩

theorem test_witness_StoreThenLoadReproducesRegisters :
    Memory.wf running.params.font running.mem ∧
    BlockInBounds { running with i := 0x0FF0 } ((0xF : Nibble).toNat + 1) := by
  refine ⟨by decide, by unfold BlockInBounds; decide⟩

/-- A state with a two-row sprite over one set pixel. -/
def collidingSprite : State := withPixel (spriteState 0xD012 [0x80, 0x01] [(0, 3), (1, 4)]) 4 3

theorem test_witness_DrwXorsSpriteAndFlagsCollision :
    BlockInBounds collidingSprite (2 : Nibble).toNat ∧ SpriteCovers collidingSprite 0 1 2 4 3 ∧
    SpriteCovers collidingSprite 0 1 2 5 10 ∧ collidingSprite.fb.pixel 4 3 = true ∧ collidingSprite.fb.pixel 5 10 = false := by
  refine ⟨by unfold BlockInBounds; decide, by unfold SpriteCovers; decide, by unfold SpriteCovers; decide, by decide,
    by decide⟩

/-- The wrapped edge policy, a sprite of no rows anywhere, and a place no sprite pixel covers. -/
theorem test_witness_DrwXorsSpriteAndFlagsCollision_clauses :
    SpriteCovers (wrapping (spriteState 0xD011 [0xFF] [(0, 0x3C)])) 0 1 1 0 3 ∧
    ¬SpriteCovers (spriteState 0xD011 [0xFF] [(0, 0x3C)]) 0 1 1 0 3 ∧
    BlockInBounds { running with i := 0xFFFF } (0 : Nibble).toNat := by
  refine ⟨by unfold SpriteCovers; decide, by unfold SpriteCovers; decide, by unfold BlockInBounds; decide⟩

theorem test_witness_DrwOutOfBoundsDrawsNothing : FirstOffending (effAddr atLastByte 0) (2 : Nibble).toNat 0x1000 :=
  ⟨by decide, by decide, by decide, fun b _ h => by omega⟩

theorem test_witness_DrawingTwiceRestoresFrame :
    BlockInBounds collidingSprite (2 : Nibble).toNat ∧
    ((after collidingSprite).map fun t => (setColumns t 4, setColumns t 5)) = some ([], [10]) := by
  refine ⟨by unfold BlockInBounds; decide, by decide⟩

theorem test_witness_KeySkipsTestTheLevel :
    ((withRegs running [(1, 15)]).reg 1).toNat < 16 ∧ 15 < ((withRegs running [(1, 16)]).reg 1).toNat := by decide

theorem test_witness_InvalidKeyChangesNothing : 16 > 15 := by decide

theorem test_witness_FreshPressResolvesOnce :
    let s : State := { withWord 0xF10A with await := true }
    s.life = .running ∧ s.await = true ∧ s.key[7] = false ∧ s.pc.toNat ≤ 0xFFE := by decide

theorem test_witness_OtherKeyEventsChangeTheLevelOnly :
    (running.setKey 7 true).key[7] = true ∧ running.await = false ∧ State.reset.life ≠ .running ∧ (15 : Nat) < 16 := by
  decide

theorem test_witness_OnlyPressOrResetEndsTheWait :
    let s : State := { withWord 0xF10A with await := true }
    s.await = true ∧ (∃ t, performOp (.setKeyState 7 true false) s = .next t ∧ t.await = false) ∧
    (∃ t, performOp .reset s = .next t ∧ t.await = false) ∧ ∃ t, performOp (.step true 0) s = .next t ∧ t.await = true :=
  ⟨rfl, ⟨_, rfl, rfl⟩, ⟨_, rfl, rfl⟩, ⟨_, rfl, rfl⟩⟩

theorem test_witness_FatalErrorIsStickyUntilReset :
    Halted .stackOverflow { running with life := .halted, fault := some .stackOverflow } ∧ (HostOp.start ≠ .reset) :=
  ⟨⟨rfl, rfl⟩, by decide⟩

/-- One next state that completes, and one fatal error of each of the five instructions. -/
theorem test_witness_OnlyFiveInstructionsCanHalt :
    (∃ t, exec (.ldImm 0 1) running = .next t ∧ t.fault = none) ∧
    (∃ t, exec (.call 0x300) { running with sp := 16 } = .next t ∧ t.fault = some .stackOverflow) ∧
    (∃ t, exec (.drw 0 0 2) atLastByte = .next t ∧ t.fault = some (.outOfBounds 0x1000)) ∧
    (∃ t, exec (.ldB 0) atLastByte = .next t ∧ t.fault = some (.outOfBounds 0x1000)) ∧
    (∃ t, exec (.ldMemVx 1) atLastByte = .next t ∧ t.fault = some (.outOfBounds 0x1000)) ∧
    ∃ t, exec (.ldVxMem 1) atLastByte = .next t ∧ t.fault = some (.outOfBounds 0x1000) :=
  ⟨⟨_, rfl, rfl⟩, ⟨_, rfl, by decide⟩, ⟨_, rfl, by decide⟩, ⟨_, rfl, by decide⟩, ⟨_, rfl, by decide⟩,
    ⟨_, rfl, by decide⟩⟩

theorem test_witness_EachStoreHasItsWriters :
    (∃ t, exec (.ldImm 0 1) running = .next t) ∧ (∀ x, Instr.ldImm 0 1 ≠ .ldB x ∧ Instr.ldImm 0 1 ≠ .ldMemVx x) ∧
    (Instr.ldImm 0 1 ≠ .cls ∧ ∀ x y n, Instr.ldImm 0 1 ≠ .drw x y n) ∧
    (Instr.ldImm 0 1 ≠ .ret ∧ ∀ nnn, Instr.ldImm 0 1 ≠ .call nnn) := by
  refine ⟨⟨_, rfl⟩, ?_, ?_, ?_⟩ <;> simp

theorem test_witness_EachSpecialRegisterHasItsWriters :
    (∃ t, exec (.ldImm 0 1) running = .next t) ∧ (∀ x, Instr.ldImm 0 1 ≠ .ldDtVx x) ∧
    (∀ x, Instr.ldImm 0 1 ≠ .ldStVx x) ∧ (∀ x, Instr.ldImm 0 1 ≠ .ldVxK x) ∧
    ∀ nnn x, Instr.ldImm 0 1 ≠ .ldI nnn ∧ Instr.ldImm 0 1 ≠ .addI x ∧ Instr.ldImm 0 1 ≠ .ldF x ∧
      Instr.ldImm 0 1 ≠ .ldMemVx x ∧ Instr.ldImm 0 1 ≠ .ldVxMem x := by
  refine ⟨⟨_, rfl⟩, ?_⟩
  simp

theorem test_witness_FlagRegisterHasItsWriters :
    (∃ t, exec (.ldImm 0xE 1) (withRegs running [(0xF, 9)]) = .next t ∧ t.reg 0xF = 9) ∧
    (∃ t, exec (.addReg 0xE 0xF) (withRegs running [(0xF, 9)]) = .next t ∧ t.reg 0xF = 0) ∧ (0xE : Nibble) ≠ 0xF :=
  ⟨⟨_, rfl, by decide⟩, ⟨_, rfl, by decide⟩, by decide⟩

theorem test_witness_PcHasItsWriters :
    (∃ t, performOp (.step false 0) (withWord 0x1ABC) = .next t ∧ t.pc ≠ (withWord 0x1ABC).pc) ∧
    (∃ t, performOp .reset { running with pc := 0x300 } = .next t ∧ t.pc ≠ 0x300) ∧
    ∃ t, performOp (.setKeyState 0 true false) { withWord 0xF00A with await := true } = .next t ∧ t.pc ≠ 0x200 :=
  ⟨⟨_, rfl, by decide⟩, ⟨_, rfl, by decide⟩, ⟨_, rfl, by decide⟩⟩

theorem resetStack_le : ∀ a ∈ State.reset.stack, a.toNat ≤ 0x1000 := by
  intro a h
  rw [show State.reset.stack = List.replicate 16 0 from rfl] at h
  rw [List.eq_of_mem_replicate h]
  decide

/-- A running state with a full stack, `PC` at the last fetchable address and a key awaited is legal. -/
theorem test_witness_StepKeepsStateLegal :
    Legal { running with pc := 0x0FFE, await := true, sp := 16 } ∧
    ∃ t, step { running with pc := 0x0FFE, await := true, sp := 16 } = .next t := by
  exact ⟨⟨by decide, by decide, by decide, resetStack_le, by decide, by decide, by decide, by decide, by decide⟩, _, rfl⟩

/-- A halted state with the highest address a run can latch is legal. -/
theorem test_witness_StepKeepsStateLegal_halted :
    Legal { State.reset with pc := 0x10FE, life := .halted, fault := some (.outOfBounds 0xFFFF) } := by
  exact ⟨by decide, by decide, by decide, resetStack_le, by decide, by decide, by decide, by decide, by decide⟩

theorem test_witness_PlacedWordIsRunNext :
    65535 < 65536 ∧ Memory.wf State.reset.params.font State.reset.mem := by decide

end Sys2Proof.Tests
end

section
/-! PROOFS about memory (spec/20_memory.md). -/

namespace Sys2Proof.Machine

/-- An in-bounds write succeeds, changes no field but memory, and in memory only the byte at its address (R43). -/
theorem memWrite_effect {s : State} {a : Nat} (b : Byte) (hm : Memory.wf s.params.font s.mem) (ha : a ≤ 0xFFF) :
    ∃ t, memWrite s a b = .ok t ∧ t = { s with mem := t.mem } ∧
      ∀ x, t.readByte x = if x = a then b else s.readByte x := by
  obtain ⟨hrising, -⟩ := hm
  refine ⟨s.writeByte a b, memWrite_ok ha, rfl, fun x => ?_⟩
  simp only [State.readByte_writeByte s a b x hrising, eq_comm (a := a)]

/-- Settles O6: the bounds check decides between the error and the access, and a write in bounds has `memWrite_effect`. -/
theorem memoryReadAndWrite : Obligations.MemoryReadAndWrite := by
  intro s a b hm
  refine ⟨fun hout => ?_, fun hin => ?_⟩
  · exact ⟨memRead_error hout, memWrite_error hout⟩
  · exact ⟨memRead_ok hin, memWrite_effect b hm hin⟩

end Sys2Proof.Machine
end

section
/-! PROOFS about the execution cycle (spec/40_execution_cycle.md). -/

namespace Sys2Proof.Machine

/-! ## What an instruction leaves of the timers -/

/-- A pop changes the stack pointer only (R20). -/
theorem pop_frame (s : State) : (pop s).2 = { s with sp := (pop s).2.sp } := by
  by_cases h : s.sp = 0
  · rw [pop_empty h]
  · rw [pop_entry h]

/-- What holds of the completed state and of the aborted state with its error entered holds after a block access. -/
theorem blockOutcome_of_both {P : State → Prop} {completed aborted : State} (e : Option FatalError)
    (hc : P completed) (ha : ∀ err, P (aborted.halt err)) : P (blockOutcome e completed aborted) := by
  cases e with
  | none => exact hc
  | some err => exact ha err

/-- Both timers are as before. -/
def SameTimers (s t : State) : Prop := t.dt = s.dt ∧ t.st = s.st

theorem execRet_sameTimers (s : State) : SameTimers s ((pop s).2.jump (pop s).1) := by
  rw [pop_frame s]
  exact ⟨rfl, rfl⟩

/-- Each timer is as before unless the instruction is the one that writes it (R208, R209). -/
def KeepsUnwrittenTimers (i : Instr) (s t : State) : Prop :=
  ((∀ x, i ≠ .ldDtVx x) → t.dt = s.dt) ∧ ((∀ x, i ≠ .ldStVx x) → t.st = s.st)

theorem SameTimers.keepsUnwritten {i : Instr} {s t : State} (h : SameTimers s t) : KeepsUnwrittenTimers i s t :=
  ⟨fun _ => h.1, fun _ => h.2⟩

/-- Every instruction has a next state that keeps the timers it does not write. The cases named are the two writers, and the
instructions whose next state depends on the stack or on a block access. -/
theorem exec_next_keepsUnwrittenTimers (i : Instr) (s : State) : ∃ t, exec i s = .next t ∧ KeepsUnwrittenTimers i s t := by
  have same : ∀ {t}, exec i s = .next t → SameTimers s t → ∃ t, exec i s = .next t ∧ KeepsUnwrittenTimers i s t :=
    fun he h => ⟨_, he, h.keepsUnwritten⟩
  cases i with
  | ldDtVx x => exact ⟨_, rfl, fun h => absurd rfl (h x), fun _ => rfl⟩
  | ldStVx x => exact ⟨_, rfl, fun _ => rfl, fun h => absurd rfl (h x)⟩
  | ret => exact same rfl (execRet_sameTimers s)
  | call nnn =>
    refine same (execCall_eq nnn s) ?_
    split <;> exact ⟨rfl, rfl⟩
  | drw x y n => exact same (execDrw_eq x y n s) (blockOutcome_of_both _ ⟨rfl, rfl⟩ fun _ => ⟨rfl, rfl⟩)
  | ldB x => exact same (execLdB_eq x s) (blockOutcome_of_both _ ⟨rfl, rfl⟩ fun _ => ⟨rfl, rfl⟩)
  | ldMemVx x => exact same (execLdMemVx_eq x s) (blockOutcome_of_both _ ⟨rfl, rfl⟩ fun _ => ⟨rfl, rfl⟩)
  | ldVxMem x => exact same (execLdVxMem_eq x s) (blockOutcome_of_both _ ⟨rfl, rfl⟩ fun _ => ⟨rfl, rfl⟩)
  | _ => exact same rfl ⟨rfl, rfl⟩

theorem exec_keepsUnwrittenTimers {i : Instr} {s t : State} (h : exec i s = .next t) : KeepsUnwrittenTimers i s t := by
  obtain ⟨t', ht', hkeeps⟩ := exec_next_keepsUnwrittenTimers i s
  obtain rfl : t' = t := Host.Outcome.next.inj (ht'.symm.trans h)
  exact hkeeps

theorem exec_ldDtVx_dt {x : Nibble} {s t : State} (h : exec (.ldDtVx x) s = .next t) : t.dt = s.reg x := by
  obtain rfl : _ = t := Host.Outcome.next.inj h
  rfl

theorem exec_ldStVx_st {x : Nibble} {s t : State} (h : exec (.ldStVx x) s = .next t) : t.st = s.reg x := by
  obtain rfl : _ = t := Host.Outcome.next.inj h
  rfl

theorem exec_ldVxDt_reg {x : Nibble} {s t : State} (h : exec (.ldVxDt x) s = .next t) : t.reg x = s.dt := by
  obtain rfl : (s.setReg x s.dt).advance = t := Host.Outcome.next.inj h
  simp

/-! ## The tick of a running step -/

theorem State.begun_dt_toNat (s : State) (tickDue : Bool) (rnd : Byte) :
    (s.begun tickDue rnd).dt.toNat = if tickDue then s.dt.toNat - 1 else s.dt.toNat :=
  tickIf_dt_toNat { s with rnd := rnd } tickDue

theorem State.begun_st_toNat (s : State) (tickDue : Bool) (rnd : Byte) :
    (s.begun tickDue rnd).st.toNat = if tickDue then s.st.toNat - 1 else s.st.toNat :=
  tickIf_st_toNat { s with rnd := rnd } tickDue

@[simp] theorem State.begun_reg (s : State) (tickDue : Bool) (rnd : Byte) (x : Nibble) :
    (s.begun tickDue rnd).reg x = s.reg x := rfl

/-- A running step that waits or cannot fetch has made its tick and touches the timers no further. -/
theorem stepOp_gated_sameTimers {s t : State} {tickDue : Bool} {rnd : Byte} (hrun : s.life = .running)
    (hgate : s.await = true ∨ 0xFFE < s.pc.toNat) (h : stepOp tickDue rnd s = .next t) :
    SameTimers (s.begun tickDue rnd) t := by
  rw [stepOp_running hrun] at h
  by_cases hpc : 0xFFE < s.pc.toNat
  · rw [if_pos hpc] at h
    obtain rfl : _ = t := Host.Outcome.next.inj h
    exact ⟨rfl, rfl⟩
  · rw [if_neg hpc, if_pos (hgate.resolve_right hpc)] at h
    obtain rfl : _ = t := Host.Outcome.next.inj h
    exact ⟨rfl, rfl⟩

/-- A running step behind both gates is the decoded instruction on the ticked state (R80). -/
theorem stepOp_executes {s : State} (hrun : s.life = .running) (hgate : ¬(s.await = true ∨ 0xFFE < s.pc.toNat))
    (tickDue : Bool) (rnd : Byte) :
    stepOp tickDue rnd s = exec (decodeWord (wordAtPc s)) (s.begun tickDue rnd) := by
  obtain ⟨hwait, hpc⟩ := not_or.mp hgate
  rw [stepOp_running hrun, if_neg hpc, if_neg hwait]

/-- Settles O11: a gated step leaves the ticked timers, and an executed instruction sees the ticked state and changes a
timer only where it is that timer's writer. -/
theorem tickComesFirst : Obligations.TickComesFirst := by
  intro s t tickDue rnd hrun hstep ticked executed
  have hdt : (s.begun tickDue rnd).dt.toNat = ticked s.dt := s.begun_dt_toNat tickDue rnd
  have hst : (s.begun tickDue rnd).st.toNat = ticked s.st := s.begun_st_toNat tickDue rnd
  by_cases hgate : s.await = true ∨ 0xFFE < s.pc.toNat
  · have hnone : executed = none := if_pos hgate
    obtain ⟨hdt', hst'⟩ := stepOp_gated_sameTimers hrun hgate hstep
    rw [hnone, hdt', hst']
    exact ⟨hdt, hst, fun _ h => nomatch h⟩
  · have hsome : executed = some (decodeWord (wordAtPc s)) := if_neg hgate
    rw [stepOp_executes hrun hgate] at hstep
    rw [hsome]
    generalize decodeWord (wordAtPc s) = i at hstep
    obtain ⟨hdtKept, hstKept⟩ := exec_keepsUnwrittenTimers hstep
    refine ⟨?_, ?_, fun x hx => ?_⟩
    · split
      next x hx =>
        obtain rfl := Option.some.inj hx
        rw [exec_ldDtVx_dt hstep, State.begun_reg]
      next hne => rw [hdtKept fun x hx => hne x (congrArg some hx), hdt]
    · split
      next x hx =>
        obtain rfl := Option.some.inj hx
        rw [exec_ldStVx_st hstep, State.begun_reg]
      next hne => rw [hstKept fun x hx => hne x (congrArg some hx), hst]
    · obtain rfl := Option.some.inj hx
      rw [exec_ldVxDt_reg hstep, hdt]

/-! ## The default arm -/

theorem exec_unrecognized (w : Word) (s : State) : exec (.unrecognized w) s = .next s.advance := rfl

/-- Settles O14: the default arm is the sequential advance, which writes `PC` and no other field. -/
theorem unrecognizedIsNoOp : Obligations.UnrecognizedIsNoOp := by
  intro w s
  rw [exec_unrecognized, State.advance]

end Sys2Proof.Machine
end

section
/-! PROOFS about control transfer (spec/41_control_flow.md). -/

namespace Sys2Proof

/-! ## The decoder on the rows of the jumps and the register skips (R64) -/

theorem decodeWord_jp (nnn : Addr12) : decodeWord (formatNNN 0x1 nnn) = .jp nnn := by
  simp [decodeWord]

theorem decodeWord_jpV0 (nnn : Addr12) : decodeWord (formatNNN 0xB nnn) = .jpV0 nnn := by
  simp [decodeWord]

theorem decodeWord_seImm (x : Nibble) (kk : Byte) : decodeWord (formatXKK 0x3 x kk) = .seImm x kk := by
  simp [decodeWord]

theorem decodeWord_sneImm (x : Nibble) (kk : Byte) : decodeWord (formatXKK 0x4 x kk) = .sneImm x kk := by
  simp [decodeWord]

theorem decodeWord_seReg (x y : Nibble) : decodeWord (ofDigits 0x5 x y 0x0) = .seReg x y := by
  simp [decodeWord]

theorem decodeWord_sneReg (x y : Nibble) : decodeWord (ofDigits 0x9 x y 0x0) = .sneReg x y := by
  simp [decodeWord]

end Sys2Proof

namespace Sys2Proof.Machine

/-! ## Return -/

/-- `SP - 1` on a stack that is not empty does not wrap. -/
theorem sub_one_eq_ofNat {b : Byte} (h : 0 < b.toNat) : b - 1 = BitVec.ofNat 8 (b.toNat - 1) := by
  bv_omega

theorem execRet_empty {s : State} (h : s.sp.toNat = 0) : execRet s = .next { s with pc := 0x0000 } := by
  have hsp : s.sp = 0 := BitVec.eq_of_toNat_eq h
  rw [execRet, pop_empty hsp, State.jump]

theorem execRet_entry {s : State} (hpos : 0 < s.sp.toNat) (hlen : s.sp.toNat - 1 < s.stack.length) :
    execRet s = .next { s with pc := s.stack[s.sp.toNat - 1], sp := BitVec.ofNat 8 (s.sp.toNat - 1) } := by
  have hsp : s.sp ≠ 0 := fun h => absurd (congrArg BitVec.toNat h) hpos.ne'
  rw [execRet, pop_entry hsp, List.getElem?_eq_getElem hlen, Option.getD_some, sub_one_eq_ofNat hpos, State.jump]

/-- Settles O15: the two cases of `pop`. -/
theorem retPopsReturnAddress : Obligations.RetPopsReturnAddress := by
  refine ⟨by decide, fun s => ⟨fun hempty => ?_, fun ⟨hpos, hlen⟩ => ?_⟩⟩
  · exact execRet_empty hempty
  · exact execRet_entry hpos (by omega)

/-! ## Jumps -/

theorem addrOperand_toNat (nnn : Addr12) : (addrOperand nnn).toNat = nnn.toNat :=
  BitVec.toNat_setWidth_of_le (by decide)

theorem wideOperand_toNat (b : Byte) : (wideOperand b).toNat = b.toNat :=
  BitVec.toNat_setWidth_of_le (by decide)

/-- The 16-bit sum of a byte and an address operand never wraps (R104). -/
theorem wideOperand_add_addrOperand_toNat (b : Byte) (nnn : Addr12) :
    (wideOperand b + addrOperand nnn).toNat = b.toNat + nnn.toNat := by
  have := b.isLt
  have := nnn.isLt
  rw [BitVec.toNat_add, wideOperand_toNat, addrOperand_toNat, Nat.mod_eq_of_lt (by omega)]

/-- Settles O19: both targets, as numbers, are the operands' own numbers. -/
theorem jumpsSetPc : Obligations.JumpsSetPc := by
  intro nnn s
  have htarget := wideOperand_add_addrOperand_toNat (s.reg 0) nnn
  refine ⟨decodeWord_jp nnn, decodeWord_jpV0 nnn, ⟨addrOperand nnn, addrOperand_toNat nnn, rfl⟩,
    wideOperand (s.reg 0) + addrOperand nnn, htarget, ?_, rfl⟩
  have := (s.reg 0).isLt
  have := nnn.isLt
  omega

/-! ## Skips -/

/-- "Skip next" by a Boolean test of a proposition writes `PC` only, by whether the proposition holds (R109). -/
theorem State.skipIf_eq (s : State) {c : Bool} {P : Prop} [Decidable P] (h : c = true ↔ P) :
    s.skipIf c = { s with pc := if P then s.pc + 4 else s.pc + 2 } := by
  simp only [State.skipIf, h]

/-- Settles O20: each skip is `State.skipIf` with the Boolean test of its condition. -/
theorem registerSkipsMovePc : Obligations.RegisterSkipsMovePc := by
  intro x y kk s
  refine ⟨decodeWord_seImm x kk, decodeWord_sneImm x kk, decodeWord_seReg x y, decodeWord_sneReg x y, ?_, ?_, ?_, ?_⟩
  · exact congrArg Host.Outcome.next (s.skipIf_eq beq_iff_eq)
  · exact congrArg Host.Outcome.next (s.skipIf_eq bne_iff_ne)
  · exact congrArg Host.Outcome.next (s.skipIf_eq beq_iff_eq)
  · exact congrArg Host.Outcome.next (s.skipIf_eq bne_iff_ne)

end Sys2Proof.Machine
end

section
/-! PROOFS about the register and ALU instructions (spec/42_register_alu.md). -/

namespace Sys2Proof

/-! ## The decoder on the rows of class 6, 7 and 8 (R64) -/

theorem decodeWord_ldImm (x : Nibble) (kk : Byte) : decodeWord (formatXKK 0x6 x kk) = .ldImm x kk := by
  simp [decodeWord]

theorem decodeWord_addImm (x : Nibble) (kk : Byte) : decodeWord (formatXKK 0x7 x kk) = .addImm x kk := by
  simp [decodeWord]

theorem decodeWord_ldReg (x y : Nibble) : decodeWord (ofDigits 0x8 x y 0x0) = .ldReg x y := by
  simp [decodeWord, decodeClass8]

theorem decodeWord_addReg (x y : Nibble) : decodeWord (ofDigits 0x8 x y 0x4) = .addReg x y := by
  simp [decodeWord, decodeClass8]

theorem decodeWord_sub (x y : Nibble) : decodeWord (ofDigits 0x8 x y 0x5) = .sub x y := by
  simp [decodeWord, decodeClass8]

theorem decodeWord_shl (x y : Nibble) : decodeWord (ofDigits 0x8 x y 0xE) = .shl x y := by
  simp [decodeWord, decodeClass8]

end Sys2Proof

namespace Sys2Proof.Machine

/-! ## Registers after the two ordered writes (R86) -/

/-- The flag, written last, wins in `VF`. -/
@[simp] theorem resultThenFlag_reg (s : State) (x : Nibble) (result flag : Byte) (r : Nibble) :
    (resultThenFlag s x result flag).reg r = if r = 0xF then flag else if r = x then result else s.reg r := by
  simp [resultThenFlag]

/-- The result, written last, wins in `V[x]`. -/
@[simp] theorem flagThenResult_reg (s : State) (x : Nibble) (result flag : Byte) (r : Nibble) :
    (flagThenResult s x result flag).reg r = if r = x then result else if r = 0xF then flag else s.reg r := by
  simp [flagThenResult]

/-! ## Flags and results as numbers -/

theorem flagByte_toNat (c : Bool) : (flagByte c).toNat = if c then 1 else 0 := by
  cases c <;> rfl

theorem carryFlag_toNat (a b : Byte) : (carryFlag a b).toNat = if a.toNat + b.toNat > 255 then 1 else 0 := by
  simp [carryFlag, flagByte_toNat]

theorem notBorrowFlag_toNat (a b : Byte) : (notBorrowFlag a b).toNat = if a.toNat < b.toNat then 0 else 1 := by
  simp only [notBorrowFlag, flagByte_toNat, Bool.not_eq_true', decide_eq_false_iff_not, ite_not]

/-- The mask `0x80` selects the most significant bit. -/
theorem and_high_bit_ne_zero (b : Byte) : (b &&& 0x80 != 0) = b.msb := by
  have hmask : b &&& 0x80 = if b.msb then BitVec.twoPow 8 7 else 0 := BitVec.and_twoPow b 7
  rw [hmask]
  cases b.msb <;> rfl

theorem highBitFlag_toNat (b : Byte) : (highBitFlag b).toNat = b.toNat / 128 := by
  have := b.isLt
  rw [highBitFlag, and_high_bit_ne_zero, flagByte_toNat, BitVec.msb_eq_decide]
  simp only [decide_eq_true_eq]
  split <;> omega

/-- Byte subtraction is integer subtraction modulo 256. -/
theorem sub_toNat_int (a b : Byte) : ((a - b).toNat : Int) = ((a.toNat : Int) - b.toNat) % 256 := by
  have := a.isLt
  have := b.isLt
  rw [BitVec.toNat_sub]
  omega

theorem shiftLeft_one_toNat (b : Byte) : (b <<< 1).toNat = b.toNat * 2 % 256 := by
  rw [BitVec.toNat_shiftLeft, Nat.shiftLeft_eq]

/-! ## Loads and immediate addition -/

/-- Settles O21: each is one register write and the advance; the immediate sum wraps modulo 256. -/
theorem loadsAndImmediateAddWriteVx : Obligations.LoadsAndImmediateAddWriteVx := by
  intro x y kk s
  refine ⟨decodeWord_ldImm x kk, decodeWord_addImm x kk, decodeWord_ldReg x y,
    ⟨_, rfl, rfl, fun _ => rfl, s.reg_setReg x kk⟩, ⟨_, rfl, rfl, fun _ => rfl, fun r => ?_⟩,
    ⟨_, rfl, rfl, fun _ => rfl, s.reg_setReg x (s.reg y)⟩⟩
  rw [State.reg_advance, State.reg_setReg, apply_ite BitVec.toNat, BitVec.toNat_add]

/-! ## Arithmetic with a flag -/

/-- Settles O23: the sum wraps, and the carry is written over it where `x` is `F`. -/
theorem addRegWritesSumThenCarry : Obligations.AddRegWritesSumThenCarry := by
  intro x y s
  refine ⟨decodeWord_addReg x y, _, rfl, rfl, fun _ => rfl, fun r => ?_⟩
  rw [resultThenFlag_reg, apply_ite BitVec.toNat, apply_ite BitVec.toNat, carryFlag_toNat, BitVec.toNat_add]

/-- Settles O24: the difference wraps, and the not-borrow is written over it where `x` is `F`. -/
theorem subWritesDifferenceThenNotBorrow : Obligations.SubWritesDifferenceThenNotBorrow := by
  intro x y s
  refine ⟨decodeWord_sub x y, _, rfl, rfl, fun _ => rfl, fun r => ?_⟩
  rw [resultThenFlag_reg, ← sub_toNat_int]
  simp only [apply_ite BitVec.toNat, notBorrowFlag_toNat, Nat.cast_ite, Nat.cast_zero, Nat.cast_one]

/-- Settles O27: bit 7 goes to `VF`, and the doubled `Vy` is written over it where `x` is `F`. -/
theorem shlWritesFlagThenDouble : Obligations.ShlWritesFlagThenDouble := by
  intro x y s
  refine ⟨decodeWord_shl x y, _, rfl, rfl, fun _ => rfl, fun r => ?_⟩
  rw [flagThenResult_reg, apply_ite BitVec.toNat, apply_ite BitVec.toNat, highBitFlag_toNat, shiftLeft_one_toNat]

end Sys2Proof.Machine
end

section
/-! PROOFS about the index register and memory (spec/43_index_memory.md). -/

namespace Sys2Proof

/-! ## The decoder on the rows of the index loads (R64) -/

theorem decodeWord_ldI (nnn : Addr12) : decodeWord (formatNNN 0xA nnn) = .ldI nnn := by
  simp [decodeWord]

theorem decodeWord_ldF (x : Nibble) : decodeWord (formatXKK 0xF x 0x29) = .ldF x := by
  simp [decodeWord, decodeClassF]

end Sys2Proof

namespace Sys2Proof.Machine

/-! ## Index loads -/

/-- Five times a byte is at most 1275, so the 16-bit product never wraps (R142). -/
theorem glyphAddr_toNat (b : Byte) : (glyphAddr b).toNat = b.toNat * 5 := by
  have hbyte : b.toNat < 256 := b.isLt
  have hfive : (5 : Word).toNat = 5 := rfl
  rw [glyphAddr, BitVec.toNat_mul, wideOperand_toNat, hfive, Nat.mod_eq_of_lt (by omega)]

/-- Settles O30: each is one write of `I` and the advance, and both values fit in 16 bits. -/
theorem indexLoadsWriteI : Obligations.IndexLoadsWriteI := by
  intro nnn x s
  exact ⟨decodeWord_ldI nnn, decodeWord_ldF x,
    ⟨_, rfl, rfl, fun _ => rfl, addrOperand_toNat nnn⟩,
    ⟨_, rfl, rfl, fun _ => rfl, glyphAddr_toNat (s.reg x)⟩⟩

end Sys2Proof.Machine
end

section
/-! PROOFS about the display (spec/44_display.md). -/

namespace Sys2Proof.Machine

/-! ## Clear -/

theorem exec_cls (s : State) : exec .cls s = .next { s with fb := Frame.clear, pc := s.pc + 2 } := rfl

/-- Settles O36: the frame is replaced by the clear frame, whose every pixel is unset. -/
theorem clsClearsEveryPixel : Obligations.ClsClearsEveryPixel :=
  ⟨by decide, fun s => ⟨_, exec_cls s, rfl, fun _ => rfl, Frame.pixel_clear⟩⟩

end Sys2Proof.Machine
end

section
/-! PROOFS about the keypad (spec/45_keypad.md). -/

namespace Sys2Proof

/-! ## The decoder on the rows of class E (R64) -/

theorem decodeWord_skp (x : Nibble) : decodeWord (formatXKK 0xE x 0x9E) = .skp x := by
  simp [decodeWord, decodeClassE]

theorem decodeWord_sknp (x : Nibble) : decodeWord (formatXKK 0xE x 0xA1) = .sknp x := by
  simp [decodeWord, decodeClassE]

end Sys2Proof

namespace Sys2Proof.Machine

/-! ## The level of the key a byte names -/

/-- A byte up to 15 names a key, and its level is read from the keypad (R180). -/
theorem keyPressed_of_lt (s : State) {k : Byte} (h : k.toNat < 16) : keyPressed s k = s.key[k.toNat] := by
  rw [keyPressed, Vector.getElem?_eq_getElem h, Option.getD_some]

/-- A byte above 15 names no key and reads as not pressed (R182). -/
theorem keyPressed_of_gt (s : State) {k : Byte} (h : 15 < k.toNat) : keyPressed s k = false := by
  rw [keyPressed, Vector.getElem?_eq_none h, Option.getD_none]

/-! ## The key skips -/

/-- A skip by the negation of a test has the two targets exchanged. -/
theorem State.skipIf_not (s : State) (c : Bool) :
    s.skipIf (!c) = { s with pc := if c then s.pc + 2 else s.pc + 4 } := by
  cases c <;> rfl

theorem exec_skp (x : Nibble) (s : State) :
    exec (.skp x) s = .next { s with pc := if keyPressed s (s.reg x) then s.pc + 4 else s.pc + 2 } := rfl

theorem exec_sknp (x : Nibble) (s : State) :
    exec (.sknp x) s = .next { s with pc := if keyPressed s (s.reg x) then s.pc + 2 else s.pc + 4 } :=
  congrArg Host.Outcome.next (s.skipIf_not (keyPressed s (s.reg x)))

/-- Settles O40: each skip branches on `keyPressed`, which is the key's level up to 15 and false above. -/
theorem keySkipsTestTheLevel : Obligations.KeySkipsTestTheLevel := by
  intro x s
  refine ⟨decodeWord_skp x, decodeWord_sknp x, fun hkey => ?_, fun hnone => ?_⟩
  · rw [exec_skp, exec_sknp, keyPressed_of_lt s hkey]
    exact ⟨rfl, rfl⟩
  · rw [exec_skp, exec_sknp, keyPressed_of_gt s hnone]
    exact ⟨rfl, rfl⟩

end Sys2Proof.Machine
end

section
/-! PROOFS about the errors (spec/60_exceptions.md). -/

namespace Sys2Proof.Machine

/-! ## A key event for a key that does not exist -/

/-- The range test comes first, so the level, the wait and the life are not even looked at (R243). -/
theorem setKeyStateOp_of_gt {key : Nat} (h : key > 15) (pressed tickDue : Bool) (s : State) :
    setKeyStateOp key pressed tickDue s = s := if_pos h

theorem hostReply_setKeyState_of_gt {key : Nat} (h : key > 15) (pressed tickDue : Bool) (before after : State) :
    hostReply (.setKeyState key pressed tickDue) before after = .invalidKey := if_pos h

/-- Settles O42: both the operation and its reply branch on `key > 15` before anything else. -/
theorem invalidKeyChangesNothing : Obligations.InvalidKeyChangesNothing := by
  intro key pressed tickDue s hkey
  have hsame : setKeyStateOp key pressed tickDue s = s := setKeyStateOp_of_gt hkey pressed tickDue s
  exact ⟨congrArg Host.Outcome.next hsame, hostReply_setKeyState_of_gt hkey pressed tickDue s s⟩

end Sys2Proof.Machine
end

section
/-! PROOFS about the encoding (spec/30_encoding.md). -/

namespace Sys2Proof

/-! ## The decoder on the remaining rows (R64) -/

theorem decodeWord_call (nnn : Addr12) : decodeWord (formatNNN 0x2 nnn) = .call nnn := by
  simp [decodeWord]

theorem decodeWord_orReg (x y : Nibble) : decodeWord (ofDigits 0x8 x y 0x1) = .orReg x y := by
  simp [decodeWord, decodeClass8]

theorem decodeWord_andReg (x y : Nibble) : decodeWord (ofDigits 0x8 x y 0x2) = .andReg x y := by
  simp [decodeWord, decodeClass8]

theorem decodeWord_xorReg (x y : Nibble) : decodeWord (ofDigits 0x8 x y 0x3) = .xorReg x y := by
  simp [decodeWord, decodeClass8]

theorem decodeWord_shr (x y : Nibble) : decodeWord (ofDigits 0x8 x y 0x6) = .shr x y := by
  simp [decodeWord, decodeClass8]

theorem decodeWord_subn (x y : Nibble) : decodeWord (ofDigits 0x8 x y 0x7) = .subn x y := by
  simp [decodeWord, decodeClass8]

theorem decodeWord_rnd (x : Nibble) (kk : Byte) : decodeWord (formatXKK 0xC x kk) = .rnd x kk := by
  simp [decodeWord]

theorem decodeWord_drw (x y n : Nibble) : decodeWord (ofDigits 0xD x y n) = .drw x y n := by
  simp [decodeWord]

theorem decodeWord_ldVxDt (x : Nibble) : decodeWord (formatXKK 0xF x 0x07) = .ldVxDt x := by
  simp [decodeWord, decodeClassF]

theorem decodeWord_ldVxK (x : Nibble) : decodeWord (formatXKK 0xF x 0x0A) = .ldVxK x := by
  simp [decodeWord, decodeClassF]

theorem decodeWord_ldDtVx (x : Nibble) : decodeWord (formatXKK 0xF x 0x15) = .ldDtVx x := by
  simp [decodeWord, decodeClassF]

theorem decodeWord_ldStVx (x : Nibble) : decodeWord (formatXKK 0xF x 0x18) = .ldStVx x := by
  simp [decodeWord, decodeClassF]

theorem decodeWord_addI (x : Nibble) : decodeWord (formatXKK 0xF x 0x1E) = .addI x := by
  simp [decodeWord, decodeClassF]

theorem decodeWord_ldB (x : Nibble) : decodeWord (formatXKK 0xF x 0x33) = .ldB x := by
  simp [decodeWord, decodeClassF]

theorem decodeWord_ldMemVx (x : Nibble) : decodeWord (formatXKK 0xF x 0x55) = .ldMemVx x := by
  simp [decodeWord, decodeClassF]

theorem decodeWord_ldVxMem (x : Nibble) : decodeWord (formatXKK 0xF x 0x65) = .ldVxMem x := by
  simp [decodeWord, decodeClassF]

/-! ## A word is put together from its own fields (R62) -/

theorem ofDigits_fields (w : Word) : ofDigits (fieldClass w) (fieldX w) (fieldY w) (fieldN w) = w := by
  apply BitVec.eq_of_toNat_eq
  rw [ofDigits_toNat, fieldClass_toNat, fieldX_toNat, fieldY_toNat, fieldN_toNat]
  omega

theorem formatXKK_fields (w : Word) : formatXKK (fieldClass w) (fieldX w) (fieldKk w) = w := by
  apply BitVec.eq_of_toNat_eq
  rw [formatXKK_toNat, fieldClass_toNat, fieldX_toNat, fieldKk_toNat]
  omega

theorem formatNNN_fields (w : Word) : formatNNN (fieldClass w) (fieldNnn w) = w := by
  apply BitVec.eq_of_toNat_eq
  rw [formatNNN_toNat, fieldClass_toNat, fieldNnn_toNat]
  omega

/-- A word whose digits at both ends are known. -/
theorem ofDigits_of_fields {w : Word} {a d : Nibble} (ha : (fieldClass w).toNat = a.toNat)
    (hd : (fieldN w).toNat = d.toNat) : ofDigits a (fieldX w) (fieldY w) d = w := by
  rw [← BitVec.eq_of_toNat_eq ha, ← BitVec.eq_of_toNat_eq hd, ofDigits_fields]

/-- A word whose class digit and low byte are known. -/
theorem formatXKK_of_fields {w : Word} {a : Nibble} {kk : Byte} (ha : (fieldClass w).toNat = a.toNat)
    (hk : (fieldKk w).toNat = kk.toNat) : formatXKK a (fieldX w) kk = w := by
  rw [← BitVec.eq_of_toNat_eq ha, ← BitVec.eq_of_toNat_eq hk, formatXKK_fields]

/-- A word whose class digit is known. -/
theorem formatNNN_of_class {w : Word} {a : Nibble} (ha : (fieldClass w).toNat = a.toNat) :
    formatNNN a (fieldNnn w) = w := by
  rw [← BitVec.eq_of_toNat_eq ha, formatNNN_fields]

/-! ## Encoding a decoded word -/

theorem encode_decodeClass8 {w : Word} (hc : (fieldClass w).toNat = 8) : encode (decodeClass8 w) = w := by
  unfold decodeClass8
  split
  case h_10 => rfl
  all_goals exact ofDigits_of_fields hc (by assumption)

theorem encode_decodeClassE {w : Word} (hc : (fieldClass w).toNat = 0xE) : encode (decodeClassE w) = w := by
  unfold decodeClassE
  split
  case h_3 => rfl
  all_goals exact formatXKK_of_fields hc (by assumption)

theorem encode_decodeClassF {w : Word} (hc : (fieldClass w).toNat = 0xF) : encode (decodeClassF w) = w := by
  unfold decodeClassF
  split
  case h_10 => rfl
  all_goals exact formatXKK_of_fields hc (by assumption)

/-- Encoding undoes decoding on every word: each branch of the decoder puts the word's own fields back. -/
theorem encode_decodeWord (w : Word) : encode (decodeWord w) = w := by
  unfold decodeWord
  split
  case h_1 =>
    split
    next h => exact h.symm
    · split
      next h => exact h.symm
      · rfl
  case h_6 hc =>
    split
    next hn => exact ofDigits_of_fields hc (congrArg BitVec.toNat hn)
    · rfl
  case h_9 hc => exact encode_decodeClass8 hc
  case h_10 hc =>
    split
    next hn => exact ofDigits_of_fields hc (congrArg BitVec.toNat hn)
    · rfl
  case h_14 hc => exact ofDigits_of_fields hc rfl
  case h_15 hc => exact encode_decodeClassE hc
  case h_16 =>
    refine encode_decodeClassF ?_
    have := (fieldClass w).isLt
    grind
  case h_2 hc => exact formatNNN_of_class hc
  case h_3 hc => exact formatNNN_of_class hc
  case h_11 hc => exact formatNNN_of_class hc
  case h_12 hc => exact formatNNN_of_class hc
  case h_4 hc => exact formatXKK_of_fields hc rfl
  case h_5 hc => exact formatXKK_of_fields hc rfl
  case h_7 hc => exact formatXKK_of_fields hc rfl
  case h_8 hc => exact formatXKK_of_fields hc rfl
  case h_13 hc => exact formatXKK_of_fields hc rfl

/-! ## What a matching row says of a word -/

/-- Every word the row matches decodes to an instruction with the row's mnemonic (R63). -/
def DecodesToRow (r : OpcodeRow) : Prop := ∀ w : Word, r.matchesWord w = true → (decodeWord w).mnemonic = r.mnemonic

/-- A row of format `NNN` fixes the class digit. -/
theorem DecodesToRow.of_formatNNN {m : String} (c : Nibble) {i : Addr12 → Instr}
    (hdec : ∀ nnn, decodeWord (formatNNN c nnn) = i nnn) (hm : ∀ nnn, (i nnn).mnemonic = m) :
    DecodesToRow ⟨0xF000, formatNNN c 0, m⟩ := by
  intro w h
  have hclass : fieldClass w = c := by
    have hw := eq_of_beq h
    rw [← formatNNN_fields w, matches_class_formatNNN] at hw
    simpa using congrArg fieldClass hw
  rw [← formatNNN_fields w, hclass, hdec, hm]

/-- A row of format `XKK` fixes the class digit. -/
theorem DecodesToRow.of_formatXKK {m : String} (c : Nibble) {i : Nibble → Byte → Instr}
    (hdec : ∀ x kk, decodeWord (formatXKK c x kk) = i x kk) (hm : ∀ x kk, (i x kk).mnemonic = m) :
    DecodesToRow ⟨0xF000, formatXKK c 0 0, m⟩ := by
  intro w h
  have hclass : fieldClass w = c := by
    have hw := eq_of_beq h
    rw [← formatXKK_fields w, matches_class_formatXKK] at hw
    simpa using congrArg fieldClass hw
  rw [← formatXKK_fields w, hclass, hdec, hm]

/-- A row of format `XYN` fixes the class digit. -/
theorem DecodesToRow.of_formatXYN {m : String} (c : Nibble) {i : Nibble → Nibble → Nibble → Instr}
    (hdec : ∀ x y n, decodeWord (ofDigits c x y n) = i x y n) (hm : ∀ x y n, (i x y n).mnemonic = m) :
    DecodesToRow ⟨0xF000, ofDigits c 0 0 0, m⟩ := by
  intro w h
  have hclass : fieldClass w = c := by
    have hw := eq_of_beq h
    rw [← ofDigits_fields w, matches_class_ofDigits] at hw
    simpa using congrArg fieldClass hw
  rw [← ofDigits_fields w, hclass, hdec, hm]

/-- A row of format `XY` fixes the class digit and the function digit. -/
theorem DecodesToRow.of_formatXY {m : String} (c d : Nibble) {i : Nibble → Nibble → Instr}
    (hdec : ∀ x y, decodeWord (ofDigits c x y d) = i x y) (hm : ∀ x y, (i x y).mnemonic = m) :
    DecodesToRow ⟨0xF00F, ofDigits c 0 0 d, m⟩ := by
  intro w h
  have hfixed := eq_of_beq h
  rw [← ofDigits_fields w, matches_ofDigits] at hfixed
  have hclass : fieldClass w = c := by simpa using congrArg fieldClass hfixed
  have hfun : fieldN w = d := by simpa using congrArg fieldN hfixed
  rw [← ofDigits_fields w, hclass, hfun, hdec, hm]

/-- A row of format `X` fixes the class digit and the function byte. -/
theorem DecodesToRow.of_formatX {m : String} (c : Nibble) (kk : Byte) {i : Nibble → Instr}
    (hdec : ∀ x, decodeWord (formatXKK c x kk) = i x) (hm : ∀ x, (i x).mnemonic = m) :
    DecodesToRow ⟨0xF0FF, formatXKK c 0 kk, m⟩ := by
  intro w h
  have hfixed := eq_of_beq h
  rw [← formatXKK_fields w, matches_formatXKK] at hfixed
  have hclass : fieldClass w = c := by simpa using congrArg fieldClass hfixed
  have hfun : fieldKk w = kk := by simpa using congrArg fieldKk hfixed
  rw [← formatXKK_fields w, hclass, hfun, hdec, hm]

/-- A row with no operand matches one word. -/
theorem DecodesToRow.of_word {m : String} (v : Word) (hm : (decodeWord v).mnemonic = m) :
    DecodesToRow ⟨0xFFFF, v, m⟩ := by
  intro w h
  have hw : w &&& BitVec.allOnes 16 = v := eq_of_beq h
  rw [BitVec.and_allOnes] at hw
  rw [hw, hm]

/-- Every row of the opcode map, in its order. -/
theorem decodesToRow_of_mem : ∀ r ∈ opcodeRows, DecodesToRow r := by
  simp only [opcodeRows, List.forall_mem_append, List.forall_mem_cons, List.not_mem_nil, false_imp_iff, implies_true,
    and_true]
  exact ⟨⟨.of_word 0x00E0 rfl, .of_word 0x00EE rfl,
      .of_formatNNN 0x1 decodeWord_jp fun _ => rfl, .of_formatNNN 0x2 decodeWord_call fun _ => rfl,
      .of_formatXKK 0x3 decodeWord_seImm fun _ _ => rfl, .of_formatXKK 0x4 decodeWord_sneImm fun _ _ => rfl,
      .of_formatXY 0x5 0x0 decodeWord_seReg fun _ _ => rfl, .of_formatXKK 0x6 decodeWord_ldImm fun _ _ => rfl,
      .of_formatXKK 0x7 decodeWord_addImm fun _ _ => rfl, .of_formatXY 0x8 0x0 decodeWord_ldReg fun _ _ => rfl,
      .of_formatXY 0x8 0x1 decodeWord_orReg fun _ _ => rfl, .of_formatXY 0x8 0x2 decodeWord_andReg fun _ _ => rfl,
      .of_formatXY 0x8 0x3 decodeWord_xorReg fun _ _ => rfl, .of_formatXY 0x8 0x4 decodeWord_addReg fun _ _ => rfl,
      .of_formatXY 0x8 0x5 decodeWord_sub fun _ _ => rfl, .of_formatXY 0x8 0x6 decodeWord_shr fun _ _ => rfl,
      .of_formatXY 0x8 0x7 decodeWord_subn fun _ _ => rfl, .of_formatXY 0x8 0xE decodeWord_shl fun _ _ => rfl⟩,
    .of_formatXY 0x9 0x0 decodeWord_sneReg fun _ _ => rfl, .of_formatNNN 0xA decodeWord_ldI fun _ => rfl,
    .of_formatNNN 0xB decodeWord_jpV0 fun _ => rfl, .of_formatXKK 0xC decodeWord_rnd fun _ _ => rfl,
    .of_formatXYN 0xD decodeWord_drw fun _ _ _ => rfl, .of_formatX 0xE 0x9E decodeWord_skp fun _ => rfl,
    .of_formatX 0xE 0xA1 decodeWord_sknp fun _ => rfl, .of_formatX 0xF 0x07 decodeWord_ldVxDt fun _ => rfl,
    .of_formatX 0xF 0x0A decodeWord_ldVxK fun _ => rfl, .of_formatX 0xF 0x15 decodeWord_ldDtVx fun _ => rfl,
    .of_formatX 0xF 0x18 decodeWord_ldStVx fun _ => rfl, .of_formatX 0xF 0x1E decodeWord_addI fun _ => rfl,
    .of_formatX 0xF 0x29 decodeWord_ldF fun _ => rfl, .of_formatX 0xF 0x33 decodeWord_ldB fun _ => rfl,
    .of_formatX 0xF 0x55 decodeWord_ldMemVx fun _ => rfl, .of_formatX 0xF 0x65 decodeWord_ldVxMem fun _ => rfl⟩

/-! ## Words of no row -/

/-- The map has no row for the default arm. -/
theorem mnemonic_ne_unrecognized : ∀ r ∈ opcodeRows, r.mnemonic ≠ "UNRECOGNIZED" := by
  simp [opcodeRows]

/-- A word that decodes to the default arm is matched by no row. -/
theorem matchesNoRow_of_decodeWord {w w' : Word} (h : decodeWord w = .unrecognized w') : matchesNoRow w = true := by
  refine List.all_eq_true.mpr fun r hr => ?_
  by_contra hmatch
  have hm := decodesToRow_of_mem r hr w (by simpa using hmatch)
  rw [h] at hm
  exact mnemonic_ne_unrecognized r hr hm.symm

/-- Every instruction but the default arm has a row in the map. -/
theorem exists_row (i : Instr) : (∃ w, i = .unrecognized w) ∨ ∃ r ∈ opcodeRows, r.mnemonic = i.mnemonic := by
  cases i with
  | unrecognized w => exact .inl ⟨w, rfl⟩
  | _ => exact .inr (by simp [opcodeRows, Instr.mnemonic])

open Laws in
/-- The word an instruction encodes to is one its own row matches. -/
theorem encodesToRow : ∀ i : Instr, EncodesToRow.Statement i
  | .cls => EncodesToRow.cls
  | .ret => EncodesToRow.ret
  | .jp nnn => EncodesToRow.jp nnn
  | .call nnn => EncodesToRow.call nnn
  | .seImm x kk => EncodesToRow.seImm x kk
  | .sneImm x kk => EncodesToRow.sneImm x kk
  | .seReg x y => EncodesToRow.seReg x y
  | .ldImm x kk => EncodesToRow.ldImm x kk
  | .addImm x kk => EncodesToRow.addImm x kk
  | .ldReg x y => EncodesToRow.ldReg x y
  | .orReg x y => EncodesToRow.orReg x y
  | .andReg x y => EncodesToRow.andReg x y
  | .xorReg x y => EncodesToRow.xorReg x y
  | .addReg x y => EncodesToRow.addReg x y
  | .sub x y => EncodesToRow.sub x y
  | .shr x y => EncodesToRow.shr x y
  | .subn x y => EncodesToRow.subn x y
  | .shl x y => EncodesToRow.shl x y
  | .sneReg x y => EncodesToRow.sneReg x y
  | .ldI nnn => EncodesToRow.ldI nnn
  | .jpV0 nnn => EncodesToRow.jpV0 nnn
  | .rnd x kk => EncodesToRow.rnd x kk
  | .drw x y n => EncodesToRow.drw x y n
  | .skp x => EncodesToRow.skp x
  | .sknp x => EncodesToRow.sknp x
  | .ldVxDt x => EncodesToRow.ldVxDt x
  | .ldVxK x => EncodesToRow.ldVxK x
  | .ldDtVx x => EncodesToRow.ldDtVx x
  | .ldStVx x => EncodesToRow.ldStVx x
  | .addI x => EncodesToRow.addI x
  | .ldF x => EncodesToRow.ldF x
  | .ldB x => EncodesToRow.ldB x
  | .ldMemVx x => EncodesToRow.ldMemVx x
  | .ldVxMem x => EncodesToRow.ldVxMem x
  | .unrecognized w => EncodesToRow.unrecognized w

/-- A word no row matches decodes to the default arm: any other instruction's row would match its encoding, the word. -/
theorem decodeWord_of_matchesNoRow {w : Word} (h : matchesNoRow w = true) : decodeWord w = .unrecognized w := by
  rcases exists_row (decodeWord w) with ⟨w', hw'⟩ | ⟨r, hr, hm⟩
  · have hww' : encode (.unrecognized w') = w := hw' ▸ encode_decodeWord w
    rw [hw', ← hww']
    rfl
  · have hmatch := encodesToRow (decodeWord w) r hr hm
    rw [encode_decodeWord] at hmatch
    have hno := List.all_eq_true.mp h r hr
    rw [hmatch] at hno
    cases hno

/-! ## The two directions -/

theorem wellFormed_decodeWord (w : Word) : (decodeWord w).wellFormed = true := by
  cases h : decodeWord w with
  | unrecognized w' =>
    have hww' : w' = w := by simpa [h, encode] using encode_decodeWord w
    rw [hww']
    exact matchesNoRow_of_decodeWord h
  | _ => rfl

/-- Decoding undoes encoding on every well-formed instruction: one row of the decoder per constructor. -/
theorem decodeWord_encode {i : Instr} (h : i.wellFormed = true) : decodeWord (encode i) = i := by
  cases i with
  | unrecognized w => exact decodeWord_of_matchesNoRow h
  | cls => rfl
  | ret => rfl
  | jp nnn => exact decodeWord_jp nnn
  | call nnn => exact decodeWord_call nnn
  | seImm x kk => exact decodeWord_seImm x kk
  | sneImm x kk => exact decodeWord_sneImm x kk
  | seReg x y => exact decodeWord_seReg x y
  | ldImm x kk => exact decodeWord_ldImm x kk
  | addImm x kk => exact decodeWord_addImm x kk
  | ldReg x y => exact decodeWord_ldReg x y
  | orReg x y => exact decodeWord_orReg x y
  | andReg x y => exact decodeWord_andReg x y
  | xorReg x y => exact decodeWord_xorReg x y
  | addReg x y => exact decodeWord_addReg x y
  | sub x y => exact decodeWord_sub x y
  | shr x y => exact decodeWord_shr x y
  | subn x y => exact decodeWord_subn x y
  | shl x y => exact decodeWord_shl x y
  | sneReg x y => exact decodeWord_sneReg x y
  | ldI nnn => exact decodeWord_ldI nnn
  | jpV0 nnn => exact decodeWord_jpV0 nnn
  | rnd x kk => exact decodeWord_rnd x kk
  | drw x y n => exact decodeWord_drw x y n
  | skp x => exact decodeWord_skp x
  | sknp x => exact decodeWord_sknp x
  | ldVxDt x => exact decodeWord_ldVxDt x
  | ldVxK x => exact decodeWord_ldVxK x
  | ldDtVx x => exact decodeWord_ldDtVx x
  | ldStVx x => exact decodeWord_ldStVx x
  | addI x => exact decodeWord_addI x
  | ldF x => exact decodeWord_ldF x
  | ldB x => exact decodeWord_ldB x
  | ldMemVx x => exact decodeWord_ldMemVx x
  | ldVxMem x => exact decodeWord_ldVxMem x

theorem decodeBytes_encodeBytes (bigEndian : Bool) (i : Instr) (rest : List Byte) :
    decodeBytes bigEndian (encodeBytes bigEndian i ++ rest) = .ok (decodeWord (encode i), rest) := by
  simp [encodeBytes, decodeBytes]

/-- Settles O1: the decoder inverts the encoder on words, and bytes in either order join to the encoded word. -/
theorem decodeEncodeAgree : Obligations.DecodeEncodeAgree := by
  intro i hwf
  refine ⟨decodeWord_encode hwf, fun bigEndian rest => ?_⟩
  rw [decodeBytes_encodeBytes, decodeWord_encode hwf]

/-- Settles O2: the encoder inverts the decoder, and a decoded default arm carries a word of no row. -/
theorem encodeDecodeAgree : Obligations.EncodeDecodeAgree :=
  fun w => ⟨encode_decodeWord w, wellFormed_decodeWord w⟩

/-! ## The map as a whole -/

/-- Two rows that disagree on a digit both fix match no word together. -/
theorem not_matches_both {r q : OpcodeRow} (h : r.fixed &&& q.mask ≠ q.fixed &&& r.mask) (w : Word) :
    ¬(r.matchesWord w = true ∧ q.matchesWord w = true) := by
  rintro ⟨hr, hq⟩
  refine h ?_
  rw [← eq_of_beq hr, ← eq_of_beq hq, BitVec.and_assoc, BitVec.and_assoc, BitVec.and_comm r.mask]

theorem opcodeRows_disagree : opcodeRows.Pairwise fun r q => r.fixed &&& q.mask ≠ q.fixed &&& r.mask := by
  decide

/-- Settles O3: any two rows disagree on a common fixed digit, each row decodes to its own mnemonic, and what no row matches
is the default arm. -/
theorem decodingFollowsOpcodeMap : Obligations.DecodingFollowsOpcodeMap := by
  refine ⟨opcodeRows_disagree.imp not_matches_both, fun w => ⟨fun r hr => decodesToRow_of_mem r hr w, fun hno => ?_⟩⟩
  refine decodeWord_of_matchesNoRow (List.all_eq_true.mpr fun r hr => ?_)
  rw [hno r hr, Bool.not_false]

/-! ## The default arm, class by class (R66) -/

theorem decodeClass8_eq_unrecognized (w : Word) :
    decodeClass8 w = .unrecognized w ↔ w.toNat % 16 ∈ [0x8, 0x9, 0xA, 0xB, 0xC, 0xD, 0xF] := by
  have hlt := Nat.mod_lt w.toNat (show 16 > 0 by decide)
  unfold decodeClass8
  rw [fieldN_toNat]
  generalize w.toNat % 16 = n at hlt
  interval_cases n <;> simp

theorem decodeClassE_eq_unrecognized (w : Word) :
    decodeClassE w = .unrecognized w ↔ w.toNat % 256 ∉ [0x9E, 0xA1] := by
  unfold decodeClassE
  rw [fieldKk_toNat]
  split <;> simp_all

theorem decodeClassF_eq_unrecognized (w : Word) :
    decodeClassF w = .unrecognized w ↔
      w.toNat % 256 ∉ [0x07, 0x0A, 0x15, 0x18, 0x1E, 0x29, 0x33, 0x55, 0x65] := by
  unfold decodeClassF
  rw [fieldKk_toNat]
  split <;> simp_all

theorem fieldN_eq_zero_iff (w : Word) : fieldN w = 0#4 ↔ w.toNat % 16 = 0 := by
  rw [← BitVec.toNat_inj, fieldN_toNat]
  rfl

/-- Settles O4: the classes with a default arm of their own, one by one; every word of another class is recognized. -/
theorem unrecognizedWordsByClass : Obligations.UnrecognizedWordsByClass := by
  intro w
  have hlt : w.toNat / 0x1000 < 0x10 := by
    have := w.isLt
    omega
  unfold decodeWord
  rw [fieldClass_toNat]
  generalize hc : w.toNat / 0x1000 = c at hlt ⊢
  split
  case h_1 =>
    by_cases hcls : w = 0x00E0
    · simp [hcls]
    · by_cases hret : w = 0x00EE
      · simp [hret]
      · rw [if_neg hcls, if_neg hret]
        simpa using And.intro (BitVec.toNat_ne_iff_ne.mpr hcls) (BitVec.toNat_ne_iff_ne.mpr hret)
  case h_6 => simp [fieldN_eq_zero_iff]
  case h_9 => simp [decodeClass8_eq_unrecognized]
  case h_10 => simp [fieldN_eq_zero_iff]
  case h_15 => simp [decodeClassE_eq_unrecognized]
  case h_16 =>
    obtain rfl : c = 0xF := by grind
    simp [decodeClassF_eq_unrecognized]
  all_goals simp

/-- Settles O5: the decoder evaluated on each word. -/
theorem specWordsDecode : Obligations.SpecWordsDecode := by
  unfold Obligations.SpecWordsDecode
  decide

end Sys2Proof
end

section
/-! PROOFS about what an instruction writes (spec/10_state.md) and when it meets an error (spec/60_exceptions.md). Each is a
split over the instructions. The cases named are the writers of the unit in question, and the instructions whose next state
depends on the stack or on a block access. -/

namespace Sys2Proof.Machine

/-- What holds of a next state holds of the next state: an outcome has at most one. -/
theorem holds_of_next {r : Result} {t : State} {P : State → Prop} (h : ∃ u, r = .next u ∧ P u) (ht : r = .next t) :
    P t := by
  obtain ⟨u, hu, hP⟩ := h
  obtain rfl : u = t := Host.Outcome.next.inj (hu.symm.trans ht)
  exact hP

/-! ## Memory, the frame buffer, the stack, the keys -/

/-- Each store is as before unless the instruction is one that writes it (R55, R22, R15, R23). -/
structure KeepsUnwrittenStores (i : Instr) (s t : State) : Prop where
  params : t.params = s.params
  mem : (∀ x, i ≠ .ldB x ∧ i ≠ .ldMemVx x) → t.mem = s.mem
  fb : (i ≠ .cls ∧ ∀ x y n, i ≠ .drw x y n) → t.fb = s.fb
  stack : (i ≠ .ret ∧ ∀ nnn, i ≠ .call nnn) → t.stack = s.stack ∧ t.sp = s.sp
  key : t.key = s.key

theorem exec_next_keepsUnwrittenStores (i : Instr) (s : State) :
    ∃ t, exec i s = .next t ∧ KeepsUnwrittenStores i s t := by
  cases i with
  | cls => exact ⟨_, rfl, rfl, fun _ => rfl, fun h => absurd rfl h.1, fun _ => ⟨rfl, rfl⟩, rfl⟩
  | ret =>
    refine ⟨_, rfl, ?_⟩
    rw [pop_frame s]
    exact ⟨rfl, fun _ => rfl, fun _ => rfl, fun h => absurd rfl h.1, rfl⟩
  | call nnn =>
    refine ⟨_, execCall_eq nnn s, ?_⟩
    split <;> exact ⟨rfl, fun _ => rfl, fun _ => rfl, fun h => absurd rfl (h.2 nnn), rfl⟩
  | drw x y n =>
    refine ⟨_, execDrw_eq x y n s, blockOutcome_of_both _ ?_ fun _ => ?_⟩ <;>
      exact ⟨rfl, fun _ => rfl, fun h => absurd rfl (h.2 x y n), fun _ => ⟨rfl, rfl⟩, rfl⟩
  | ldB x =>
    refine ⟨_, execLdB_eq x s, blockOutcome_of_both _ ?_ fun _ => ?_⟩ <;>
      exact ⟨rfl, fun h => absurd rfl (h x).1, fun _ => rfl, fun _ => ⟨rfl, rfl⟩, rfl⟩
  | ldMemVx x =>
    refine ⟨_, execLdMemVx_eq x s, blockOutcome_of_both _ ?_ fun _ => ?_⟩ <;>
      exact ⟨rfl, fun h => absurd rfl (h x).2, fun _ => rfl, fun _ => ⟨rfl, rfl⟩, rfl⟩
  | ldVxMem x =>
    refine ⟨_, execLdVxMem_eq x s, blockOutcome_of_both _ ?_ fun _ => ?_⟩ <;>
      exact ⟨rfl, fun _ => rfl, fun _ => rfl, fun _ => ⟨rfl, rfl⟩, rfl⟩
  | _ => exact ⟨_, rfl, rfl, fun _ => rfl, fun _ => rfl, fun _ => ⟨rfl, rfl⟩, rfl⟩

/-- Settles O53: memory that is the same list under the same font reads the same. -/
theorem eachStoreHasItsWriters : Obligations.EachStoreHasItsWriters := by
  intro i s t h
  obtain ⟨hparams, hmem, hfb, hstack, hkey⟩ := holds_of_next (exec_next_keepsUnwrittenStores i s) h
  exact ⟨fun hi => State.readByte_congr (hmem hi) hparams, hfb, hstack, hkey⟩

/-! ## The timers, the wait flag and the index register -/

/-- The wait flag and `I` are each as before unless the instruction is one that writes it (R25, R12). -/
structure KeepsUnwrittenAwaitAndI (i : Instr) (s t : State) : Prop where
  await : (∀ x, i ≠ .ldVxK x) → t.await = s.await
  i : (∀ nnn x, i ≠ .ldI nnn ∧ i ≠ .addI x ∧ i ≠ .ldF x ∧ i ≠ .ldMemVx x ∧ i ≠ .ldVxMem x) → t.i = s.i

theorem exec_next_keepsUnwrittenAwaitAndI (i : Instr) (s : State) :
    ∃ t, exec i s = .next t ∧ KeepsUnwrittenAwaitAndI i s t := by
  cases i with
  | ldVxK x => exact ⟨_, rfl, fun h => absurd rfl (h x), fun _ => rfl⟩
  | ldI nnn => exact ⟨_, rfl, fun _ => rfl, fun h => absurd rfl (h nnn 0).1⟩
  | addI x => exact ⟨_, rfl, fun _ => rfl, fun h => absurd rfl (h 0 x).2.1⟩
  | ldF x => exact ⟨_, rfl, fun _ => rfl, fun h => absurd rfl (h 0 x).2.2.1⟩
  | ldMemVx x =>
    refine ⟨_, execLdMemVx_eq x s, blockOutcome_of_both _ ?_ fun _ => ?_⟩ <;>
      exact ⟨fun _ => rfl, fun h => absurd rfl (h 0 x).2.2.2.1⟩
  | ldVxMem x =>
    refine ⟨_, execLdVxMem_eq x s, blockOutcome_of_both _ ?_ fun _ => ?_⟩ <;>
      exact ⟨fun _ => rfl, fun h => absurd rfl (h 0 x).2.2.2.2⟩
  | ret =>
    refine ⟨_, rfl, ?_⟩
    rw [pop_frame s]
    exact ⟨fun _ => rfl, fun _ => rfl⟩
  | call nnn =>
    refine ⟨_, execCall_eq nnn s, ?_⟩
    split <;> exact ⟨fun _ => rfl, fun _ => rfl⟩
  | drw x y n =>
    refine ⟨_, execDrw_eq x y n s, blockOutcome_of_both _ ?_ fun _ => ?_⟩ <;> exact ⟨fun _ => rfl, fun _ => rfl⟩
  | ldB x =>
    refine ⟨_, execLdB_eq x s, blockOutcome_of_both _ ?_ fun _ => ?_⟩ <;> exact ⟨fun _ => rfl, fun _ => rfl⟩
  | _ => exact ⟨_, rfl, fun _ => rfl, fun _ => rfl⟩

/-- Settles O54. -/
theorem eachSpecialRegisterHasItsWriters : Obligations.EachSpecialRegisterHasItsWriters := by
  intro i s t h
  obtain ⟨hdt, hst⟩ := exec_keepsUnwrittenTimers h
  obtain ⟨hawait, hi⟩ := holds_of_next (exec_next_keepsUnwrittenAwaitAndI i s) h
  exact ⟨hdt, hst, hawait, hi⟩

/-! ## The flag register -/

/-- The six instructions of R11's table. -/
def WritesFlag (i : Instr) : Prop :=
  ∃ x y n, i = .addReg x y ∨ i = .sub x y ∨ i = .shr x y ∨ i = .subn x y ∨ i = .shl x y ∨ i = .drw x y n

/-- The instructions that write a register they name, where they name `VF`. -/
def NamesF (i : Instr) : Prop :=
  ∃ y kk, i = .ldImm 0xF kk ∨ i = .addImm 0xF kk ∨ i = .ldReg 0xF y ∨ i = .orReg 0xF y ∨ i = .andReg 0xF y ∨
    i = .xorReg 0xF y ∨ i = .rnd 0xF kk ∨ i = .ldVxDt 0xF ∨ i = .ldVxMem 0xF

/-- A register write and the advance leave every other register. -/
theorem State.reg_setReg_advance_of_ne (s : State) {x r : Nibble} (b : Byte) (h : r ≠ x) :
    (s.setReg x b).advance.reg r = s.reg r := by
  rw [State.reg_advance, State.reg_setReg, if_neg h]

/-- A block load of a group that does not reach `VF` leaves it. -/
theorem loadRegs_regF (s : State) (addr : Nat) {x : Nibble} (h : x ≠ 0xF) :
    (loadRegs s addr 0 (x.toNat + 1)).1.reg 0xF = s.reg 0xF := by
  have hx : x.toNat ≠ 15 := fun hx => h (BitVec.eq_of_toNat_eq hx)
  have hlt : x.toNat < 16 := x.isLt
  exact (loadRegs_reg (x.toNat + 1) s addr 0 15 (by decide)).trans (if_neg (by omega))

/-- `VF` is as before unless the instruction is one that writes it (R11). -/
def KeepsUnwrittenFlag (i : Instr) (s t : State) : Prop := ¬WritesFlag i → ¬NamesF i → t.reg 0xF = s.reg 0xF

theorem exec_next_keepsUnwrittenFlag (i : Instr) (s : State) : ∃ t, exec i s = .next t ∧ KeepsUnwrittenFlag i s t := by
  cases i with
  | addReg x y => exact ⟨_, rfl, fun h => absurd ⟨x, y, 0, by simp⟩ h⟩
  | sub x y => exact ⟨_, rfl, fun h => absurd ⟨x, y, 0, by simp⟩ h⟩
  | shr x y => exact ⟨_, rfl, fun h => absurd ⟨x, y, 0, by simp⟩ h⟩
  | subn x y => exact ⟨_, rfl, fun h => absurd ⟨x, y, 0, by simp⟩ h⟩
  | shl x y => exact ⟨_, rfl, fun h => absurd ⟨x, y, 0, by simp⟩ h⟩
  | drw x y n => exact ⟨_, execDrw_eq x y n s, fun h => absurd ⟨x, y, n, by simp⟩ h⟩
  | ldImm x kk => exact ⟨_, rfl, fun _ h => s.reg_setReg_advance_of_ne _ fun hx => h ⟨0, kk, by simp [← hx]⟩⟩
  | addImm x kk => exact ⟨_, rfl, fun _ h => s.reg_setReg_advance_of_ne _ fun hx => h ⟨0, kk, by simp [← hx]⟩⟩
  | rnd x kk => exact ⟨_, rfl, fun _ h => s.reg_setReg_advance_of_ne _ fun hx => h ⟨0, kk, by simp [← hx]⟩⟩
  | ldReg x y => exact ⟨_, rfl, fun _ h => s.reg_setReg_advance_of_ne _ fun hx => h ⟨y, 0, by simp [← hx]⟩⟩
  | orReg x y => exact ⟨_, rfl, fun _ h => s.reg_setReg_advance_of_ne _ fun hx => h ⟨y, 0, by simp [← hx]⟩⟩
  | andReg x y => exact ⟨_, rfl, fun _ h => s.reg_setReg_advance_of_ne _ fun hx => h ⟨y, 0, by simp [← hx]⟩⟩
  | xorReg x y => exact ⟨_, rfl, fun _ h => s.reg_setReg_advance_of_ne _ fun hx => h ⟨y, 0, by simp [← hx]⟩⟩
  | ldVxDt x => exact ⟨_, rfl, fun _ h => s.reg_setReg_advance_of_ne _ fun hx => h ⟨0, 0, by simp [← hx]⟩⟩
  | ldVxMem x =>
    refine ⟨_, execLdVxMem_eq x s, blockOutcome_of_both _ ?_ fun _ => ?_⟩ <;>
      exact fun _ h => loadRegs_regF s _ fun hx => h ⟨0, 0, by simp [hx]⟩
  | ret =>
    refine ⟨_, rfl, ?_⟩
    rw [pop_frame s]
    exact fun _ _ => rfl
  | call nnn =>
    refine ⟨_, execCall_eq nnn s, ?_⟩
    split <;> exact fun _ _ => rfl
  | ldB x => exact ⟨_, execLdB_eq x s, blockOutcome_of_both _ (fun _ _ => rfl) fun _ _ _ => rfl⟩
  | ldMemVx x => exact ⟨_, execLdMemVx_eq x s, blockOutcome_of_both _ (fun _ _ => rfl) fun _ _ _ => rfl⟩
  | _ => exact ⟨_, rfl, fun _ _ => rfl⟩

theorem flagByte_zero_or_one (c : Bool) : flagByte c = 0 ∨ flagByte c = 1 := by
  cases c
  · exact .inl rfl
  · exact .inr rfl

theorem lowBitFlag_toNat (b : Byte) : (lowBitFlag b).toNat = b.toNat % 2 := by
  rw [lowBitFlag, BitVec.toNat_and]
  exact Nat.and_one_is_mod b.toNat

theorem lowBitFlag_zero_or_one (b : Byte) : lowBitFlag b = 0 ∨ lowBitFlag b = 1 := by
  have hflag := lowBitFlag_toNat b
  rcases Nat.mod_two_eq_zero_or_one b.toNat with h | h
  · exact .inl (BitVec.eq_of_toNat_eq (hflag.trans h))
  · exact .inr (BitVec.eq_of_toNat_eq (hflag.trans h))

/-- The flag, written last, is what `VF` holds. -/
theorem resultThenFlag_regF (s : State) (x : Nibble) (result flag : Byte) :
    (resultThenFlag s x result flag).reg 0xF = flag := by
  rw [resultThenFlag_reg, if_pos rfl]

/-- The flag, written first, is what `VF` holds where the result goes elsewhere. -/
theorem flagThenResult_regF (s : State) {x : Nibble} (h : x ≠ 0xF) (result flag : Byte) :
    (flagThenResult s x result flag).reg 0xF = flag := by
  rw [flagThenResult_reg, if_neg h.symm, if_pos rfl]

/-- Settles O55: the split over the instructions for the writers, and the flags' own values for the five of the ALU. -/
theorem flagRegisterHasItsWriters : Obligations.FlagRegisterHasItsWriters := by
  intro i s t h
  refine ⟨holds_of_next (exec_next_keepsUnwrittenFlag i s) h, fun x y hx hi => ?_⟩
  rcases hi with rfl | rfl | rfl | rfl | rfl
  all_goals obtain rfl : _ = t := Host.Outcome.next.inj h
  · rw [resultThenFlag_regF]
    exact flagByte_zero_or_one _
  · rw [resultThenFlag_regF]
    exact flagByte_zero_or_one _
  · rw [flagThenResult_regF s hx]
    exact lowBitFlag_zero_or_one _
  · rw [resultThenFlag_regF]
    exact flagByte_zero_or_one _
  · rw [flagThenResult_regF s hx]
    exact flagByte_zero_or_one _

/-! ## The lifecycle and the fault latch -/

/-- The lifecycle and the fault latch are as before. -/
def SameFault (s t : State) : Prop := t.life = s.life ∧ t.fault = s.fault

/-- The machine has halted where it was, with the error `e` latched (R245). -/
def HaltedInPlace (e : FatalError) (s t : State) : Prop :=
  t.life = .halted ∧ t.pc = s.pc ∧ t.i = s.i ∧ t.fault = some e

/-- The instruction accesses memory at `I` and upwards. -/
def AccessesBlock (i : Instr) : Prop :=
  (∃ x y n, i = .drw x y n) ∨ (∃ x, i = .ldB x) ∨ (∃ x, i = .ldMemVx x) ∨ ∃ x, i = .ldVxMem x

/-- Only one of five instructions can meet an error, and each only its own (R240, R241, R242). -/
def MeetsOnlyItsError (i : Instr) (s t : State) : Prop :=
  SameFault s t ∨ (HaltedInPlace .stackOverflow s t ∧ ∃ nnn, i = .call nnn) ∨
    ((∃ a, 0xFFF < a ∧ HaltedInPlace (.outOfBounds a) s t) ∧ AccessesBlock i)

/-- A block access completes, or it halts in place with an address above memory latched. -/
theorem blockOutcome_meetsOnlyItsError {i : Instr} {s completed aborted : State} (addr len : Nat) (hi : AccessesBlock i)
    (hc : SameFault s completed) (ha : aborted.pc = s.pc ∧ aborted.i = s.i) :
    MeetsOnlyItsError i s (blockOutcome (blockError addr len) completed aborted) := by
  cases he : blockError addr len with
  | none => exact .inl hc
  | some e =>
    obtain ⟨-, rfl⟩ := blockError_some he
    exact .inr (.inr ⟨⟨max addr 0x1000, by omega, rfl, ha.1, ha.2, rfl⟩, hi⟩)

theorem exec_next_meetsOnlyItsError (i : Instr) (s : State) : ∃ t, exec i s = .next t ∧ MeetsOnlyItsError i s t := by
  cases i with
  | call nnn =>
    refine ⟨_, execCall_eq nnn s, ?_⟩
    split
    · exact .inr (.inl ⟨⟨rfl, rfl, rfl, rfl⟩, nnn, rfl⟩)
    · exact .inl ⟨rfl, rfl⟩
  | drw x y n =>
    refine ⟨_, execDrw_eq x y n s, blockOutcome_meetsOnlyItsError _ _ (.inl ⟨x, y, n, rfl⟩) ?_ ?_⟩ <;> exact ⟨rfl, rfl⟩
  | ldB x =>
    refine ⟨_, execLdB_eq x s, blockOutcome_meetsOnlyItsError _ _ (.inr (.inl ⟨x, rfl⟩)) ?_ ?_⟩ <;> exact ⟨rfl, rfl⟩
  | ldMemVx x =>
    refine ⟨_, execLdMemVx_eq x s, blockOutcome_meetsOnlyItsError _ _ (.inr (.inr (.inl ⟨x, rfl⟩))) ?_ ?_⟩ <;>
      exact ⟨rfl, rfl⟩
  | ldVxMem x =>
    refine ⟨_, execLdVxMem_eq x s, blockOutcome_meetsOnlyItsError _ _ (.inr (.inr (.inr ⟨x, rfl⟩))) ?_ ?_⟩ <;>
      exact ⟨rfl, rfl⟩
  | ret =>
    refine ⟨_, rfl, .inl ?_⟩
    rw [pop_frame s]
    exact ⟨rfl, rfl⟩
  | _ => exact ⟨_, rfl, .inl ⟨rfl, rfl⟩⟩

/-- Settles O52. -/
theorem onlyFiveInstructionsCanHalt : Obligations.OnlyFiveInstructionsCanHalt := by
  intro i s t h
  rcases holds_of_next (exec_next_meetsOnlyItsError i s) h with
    hsame | ⟨⟨hlife, hpc, hi, hfault⟩, hcall⟩ | ⟨⟨a, ha, hlife, hpc, hi, hfault⟩, hblock⟩
  · exact .inl hsame
  · exact .inr ⟨hlife, hpc, hi, .inl ⟨hfault, hcall⟩⟩
  · exact .inr ⟨hlife, hpc, hi, .inr ⟨⟨a, ha, hfault⟩, hblock⟩⟩

end Sys2Proof.Machine
end

section
/-! PROOFS about the host's operations (spec/49_host_interface.md, spec/45_keypad.md R181, R186). -/

namespace Sys2Proof.Machine

/-! ## The lifecycle -/

theorem startOp_eq (s : State) : startOp s = { s with life := if s.fault = none then .running else s.life } := by
  unfold startOp
  split
  next e h => rw [h, if_neg (Option.some_ne_none e), ← h]
  next h => rw [if_pos h]

theorem stopOp_eq (s : State) : stopOp s = { s with life := if s.life = .running then .halted else s.life } := by
  unfold stopOp
  split <;> rfl

/-- Settles O49. -/
theorem startAndStopMoveTheLifecycle : Obligations.StartAndStopMoveTheLifecycle :=
  fun s => ⟨congrArg Host.Outcome.next (startOp_eq s), congrArg Host.Outcome.next (stopOp_eq s)⟩

/-! ## Loading a program -/

/-- A load writes memory only (R50). -/
theorem loadBlock_frame (s : State) (offset : Nat) (bytes : List Byte) :
    loadBlock s offset bytes = { s with mem := (loadBlock s offset bytes).mem } := by
  unfold loadBlock
  split
  · exact storeBlock_frame bytes s offset
  · rfl

theorem loadBlock_of_not_fits {s : State} {offset : Nat} {bytes : List Byte} (h : 0x1000 < offset + bytes.length) :
    loadBlock s offset bytes = s := if_neg (by simpa [blockFits] using h)

theorem loadBlock_of_fits {s : State} {offset : Nat} {bytes : List Byte} (h : offset + bytes.length ≤ 0x1000) :
    loadBlock s offset bytes = storeBlock s offset bytes := if_pos (by simpa [blockFits] using h)

/-- The program area is what remains of memory above `0x200` (R222). -/
theorem hostReply_loadProgram (bytes : List Byte) (before after : State) :
    hostReply (.loadProgram bytes) before after = if bytes.length ≤ 3584 then .ok else .outOfBounds := by
  have hfits : blockFits 0x200 bytes.length = true ↔ bytes.length ≤ 3584 := by
    rw [blockFits, decide_eq_true_eq]
    omega
  exact if_congr hfits rfl rfl

/-- Settles O7: a block that fits is stored byte by byte, and `storeBlock_readByte` says what then reads where. -/
theorem loadBlockIsAllOrNothing : Obligations.LoadBlockIsAllOrNothing := by
  intro s offset bytes hwf
  refine ⟨rfl, hostReply_loadProgram bytes s, loadBlock_of_not_fits, fun hfits => ⟨loadBlock_frame s offset bytes, ?_⟩⟩
  rw [loadBlock_of_fits hfits]
  have hread := fun x => storeBlock_readByte bytes s offset x hwf.1
  refine ⟨fun k hk => ?_, fun a ha => ?_⟩
  · rw [hread, if_pos (by omega), Nat.add_sub_cancel_left, List.getElem?_eq_getElem hk, Option.getD_some]
  · rw [hread, if_neg (by omega)]

/-! ## Key events -/

theorem keyLevel_of_lt (s : State) {k : Nat} (h : k < 16) : s.keyLevel k = s.key[k] := by
  rw [State.keyLevel, Vector.getElem?_eq_getElem h, Option.getD_some]

theorem getElem_setKey (s : State) (k : Nat) (p : Bool) (j : Nat) (h : j < 16) :
    (s.setKey k p).key[j] = if j = k then p else s.key[j] := by
  simp only [State.setKey_key, Vector.getElem_setIfInBounds, eq_comm]

/-- A key event for an existing key that does not resolve a wait stores the level (R181). -/
theorem setKeyStateOp_level {s : State} {key : Nat} {pressed : Bool} (tickDue : Bool) (hk : key < 16)
    (h : ¬(pressed = true ∧ s.keyLevel key = false ∧ s.await = true ∧ s.life = .running)) :
    setKeyStateOp key pressed tickDue s = s.setKey key pressed := by
  rcases setKeyStateOp_cases key pressed tickDue s with ⟨hgt, -⟩ | ⟨-, h1, h2, h3, h4, -⟩ | ⟨-, -, heq⟩
  · omega
  · exact absurd ⟨h1, h2, h3, h4⟩ h
  · exact heq

/-- A fresh press in a wait resolves it (R181). -/
theorem setKeyStateOp_fresh {s : State} {key : Nat} (tickDue : Bool) (hk : key < 16) (hlevel : s.keyLevel key = false)
    (hawait : s.await = true) (hrun : s.life = .running) :
    setKeyStateOp key true tickDue s = resolve key tickDue (s.setKey key true) := by
  rcases setKeyStateOp_cases key true tickDue s with ⟨hgt, -⟩ | ⟨-, -, -, -, -, heq⟩ | ⟨-, hno, -⟩
  · omega
  · exact heq
  · exact absurd ⟨rfl, hlevel, hawait, hrun⟩ hno

/-- A key event outside a wait of a running machine changes the keypad only. -/
theorem setKeyStateOp_frame {s : State} (h : s.await = false ∨ s.life ≠ .running) (key : Nat) (pressed tickDue : Bool) :
    setKeyStateOp key pressed tickDue s = { s with key := (setKeyStateOp key pressed tickDue s).key } := by
  rcases setKeyStateOp_cases key pressed tickDue s with ⟨-, heq⟩ | ⟨-, -, -, hawait, hrun, -⟩ | ⟨-, -, heq⟩
  · rw [heq]
  · simp [hawait, hrun] at h
  · rw [heq, State.setKey]

/-- Settles O44: such an event is `State.setKey`. -/
theorem otherKeyEventsChangeTheLevelOnly : Obligations.OtherKeyEventsChangeTheLevelOnly := by
  intro key hk pressed tickDue s hother
  have hlevel : setKeyStateOp key pressed tickDue s = s.setKey key pressed := by
    refine setKeyStateOp_level tickDue hk fun ⟨hpressed, hfresh, hawait, hrun⟩ => ?_
    rw [keyLevel_of_lt s hk] at hfresh
    simp [hpressed, hfresh, hawait, hrun] at hother
  exact ⟨s.setKey key pressed, congrArg Host.Outcome.next hlevel, rfl, getElem_setKey s key pressed⟩

/-- The wait resolved by key `k` in a state whose `PC` can be fetched from (R186). -/
theorem resolve_ok {s : State} (h : s.pc.toNat ≤ 0xFFE) (k : Nat) (tickDue : Bool) :
    resolve k tickDue s =
      ({ (s.tickIf tickDue).setReg (fieldX (wordAtPc s)) (BitVec.ofNat 8 k) with await := false } : State).advance := by
  rw [resolve_eq, if_neg (by omega)]

/-- A number that fits in a byte is that byte's number. -/
theorem ofNat_byte_toNat {n : Nat} (h : n < 256) : (BitVec.ofNat 8 n).toNat = n := by
  rw [BitVec.toNat_ofNat, Nat.mod_eq_of_lt h]

/-- Settles O43: the press is a resolved wait, and in the state it leaves no key is awaited, so the next event changes the
keypad only. -/
theorem freshPressResolvesOnce : Obligations.FreshPressResolvesOnce := by
  intro key hk tickDue s hrun hawait hup hpc
  have hlevel : s.keyLevel key = false := (keyLevel_of_lt s hk).trans hup
  have hop := (setKeyStateOp_fresh tickDue hk hlevel hawait hrun).trans
    (resolve_ok (s := s.setKey key true) hpc key tickDue)
  refine ⟨_, congrArg Host.Outcome.next hop, rfl, fun r => ?_, getElem_setKey s key true, tickIf_dt_toNat s tickDue,
    tickIf_st_toNat s tickDue, fun key2 pressed2 tickDue2 => ⟨_, rfl, setKeyStateOp_frame (.inl rfl) _ _ _⟩⟩
  have hfield : r = fieldX (wordAtPc s) ↔ r.toNat = (wordAtPc s).toNat / 256 % 16 := by
    rw [← BitVec.toNat_inj, fieldX_toNat]
  have hreg := State.reg_setReg s (fieldX (wordAtPc s)) (BitVec.ofNat 8 key) r
  refine (congrArg BitVec.toNat hreg).trans ?_
  simp only [hfield, apply_ite BitVec.toNat, ofNat_byte_toNat (hk.trans (by decide))]

/-! ## The outcomes of a step operation, one of four -/

/-- What a `step` operation did (R80): idle, a fetch past memory, a wait, or an instruction executed. -/
theorem stepOp_cases {s t : State} {tickDue : Bool} {rnd : Byte} (h : stepOp tickDue rnd s = .next t) :
    (s.life ≠ .running ∧ t = s) ∨
    (s.life = .running ∧ 0xFFE < s.pc.toNat ∧
      t = (s.begun tickDue rnd).halt (.outOfBounds (max s.pc.toNat 0x1000))) ∨
    (s.life = .running ∧ s.pc.toNat ≤ 0xFFE ∧ s.await = true ∧ t = s.begun tickDue rnd) ∨
    (s.life = .running ∧ s.pc.toNat ≤ 0xFFE ∧ s.await = false ∧
      exec (decodeWord (wordAtPc s)) (s.begun tickDue rnd) = .next t) := by
  by_cases hrun : s.life = .running
  · rw [stepOp_running hrun] at h
    split at h
    next hpc => exact .inr (.inl ⟨hrun, hpc, (Host.Outcome.next.inj h).symm⟩)
    next hpc =>
      split at h
      next hawait => exact .inr (.inr (.inl ⟨hrun, by omega, hawait, (Host.Outcome.next.inj h).symm⟩))
      next hawait => exact .inr (.inr (.inr ⟨hrun, by omega, by simpa using hawait, h⟩))
  · rw [stepOp_idle hrun] at h
    exact .inl ⟨hrun, (Host.Outcome.next.inj h).symm⟩

/-! ## What ends a wait, what moves `PC`, what clears an error -/

/-- The operations beside `reset`, `step` and the key events write the lifecycle and memory at most. -/
theorem performOp_frame {op : HostOp} {s t : State} (hreset : op ≠ .reset) (hstep : ∀ tickDue rnd, op ≠ .step tickDue rnd)
    (hkey : ∀ key pressed tickDue, op ≠ .setKeyState key pressed tickDue) (h : performOp op s = .next t) :
    t = { s with life := t.life, mem := t.mem } := by
  cases op with
  | reset => exact absurd rfl hreset
  | step tickDue rnd => exact absurd rfl (hstep tickDue rnd)
  | setKeyState key pressed tickDue => exact absurd rfl (hkey key pressed tickDue)
  | start =>
    obtain rfl : startOp s = t := Host.Outcome.next.inj h
    rw [startOp_eq]
  | stop =>
    obtain rfl : stopOp s = t := Host.Outcome.next.inj h
    rw [stopOp_eq]
  | loadProgram bytes =>
    obtain rfl : loadBlock s 0x200 bytes = t := Host.Outcome.next.inj h
    rw [loadBlock_frame]
  | getFrame =>
    obtain rfl : s = t := Host.Outcome.next.inj h
    rfl
  | getDebugState =>
    obtain rfl : s = t := Host.Outcome.next.inj h
    rfl

/-- Settles O45: a step in a wait executes nothing, and only the press resolves. -/
theorem onlyPressOrResetEndsTheWait : Obligations.OnlyPressOrResetEndsTheWait := by
  intro op s t hawait h
  cases op with
  | reset => exact .inr (.inl rfl)
  | step tickDue rnd =>
    left
    rcases stepOp_cases h with ⟨-, rfl⟩ | ⟨-, -, rfl⟩ | ⟨-, -, -, rfl⟩ | ⟨-, -, hno, -⟩
    · exact hawait
    · exact hawait
    · exact hawait
    · exact absurd (hawait.symm.trans hno) (by decide)
  | setKeyState key pressed tickDue =>
    obtain rfl : _ = t := Host.Outcome.next.inj h
    rcases setKeyStateOp_cases key pressed tickDue s with ⟨-, heq⟩ | ⟨-, rfl, -, -, hrun, -⟩ | ⟨-, -, heq⟩
    · rw [heq]
      exact .inl hawait
    · exact .inr (.inr ⟨key, tickDue, rfl, hrun⟩)
    · rw [heq]
      exact .inl hawait
  | _ =>
    have hframe := performOp_frame (by simp) (by simp) (by simp) h
    exact .inl ((congrArg State.await hframe).trans hawait)

/-- Settles O56: of the operations that move `PC`, a step has passed its gates, and a key event has resolved a wait. -/
theorem pcHasItsWriters : Obligations.PcHasItsWriters := by
  intro op s t h hpc
  cases op with
  | reset => exact .inl rfl
  | step tickDue rnd =>
    rcases stepOp_cases h with ⟨-, rfl⟩ | ⟨-, -, rfl⟩ | ⟨-, -, -, rfl⟩ | ⟨hrun, hle, hawait, -⟩
    · exact absurd rfl hpc
    · exact absurd rfl hpc
    · exact absurd rfl hpc
    · exact .inr (.inl ⟨tickDue, rnd, rfl, hrun, hawait, hle⟩)
  | setKeyState key pressed tickDue =>
    obtain rfl : _ = t := Host.Outcome.next.inj h
    rcases setKeyStateOp_cases key pressed tickDue s with ⟨-, heq⟩ | ⟨-, rfl, -, hawait, hrun, heq⟩ | ⟨-, -, heq⟩
    · exact absurd (congrArg State.pc heq) hpc
    · refine .inr (.inr ⟨key, tickDue, rfl, hrun, hawait, ?_⟩)
      rw [heq, resolve_eq] at hpc ⊢
      split at hpc
      · exact absurd rfl hpc
      next hle =>
        rw [if_neg hle]
        rfl
    · exact absurd (congrArg State.pc heq) hpc
  | _ => exact absurd (congrArg State.pc (performOp_frame (by simp) (by simp) (by simp) h)) hpc

/-- Settles O51: such a machine does not run, so a step is idle, no key event resolves, and `start` finds the latch set. -/
theorem fatalErrorIsStickyUntilReset : Obligations.FatalErrorIsStickyUntilReset := by
  rintro op s e ⟨hlife, hfault⟩ hop
  have hrun : s.life ≠ .running := by
    rw [hlife]
    decide
  cases op with
  | reset => exact absurd rfl hop
  | start =>
    refine ⟨s, congrArg Host.Outcome.next ?_, rfl⟩
    rw [startOp_eq, if_neg (hfault ▸ Option.some_ne_none e)]
  | stop =>
    refine ⟨s, congrArg Host.Outcome.next ?_, rfl⟩
    rw [stopOp_eq, if_neg hrun]
  | step tickDue rnd => exact ⟨s, stepOp_idle hrun tickDue rnd, rfl⟩
  | loadProgram bytes =>
    refine ⟨loadBlock s 0x200 bytes, rfl, ?_⟩
    rw [loadBlock_frame]
  | setKeyState key pressed tickDue =>
    refine ⟨setKeyStateOp key pressed tickDue s, rfl, ?_⟩
    rw [setKeyStateOp_frame (.inr hrun)]
  | getFrame => exact ⟨s, rfl, rfl⟩
  | getDebugState => exact ⟨s, rfl, rfl⟩

/-! ## Queries -/

/-- The entries of rows of equal length laid end to end. -/
theorem getElem?_flatten_of_length {α : Type} {rows : List (List α)} {w : Nat} (hw : ∀ r ∈ rows, r.length = w) {y x : Nat}
    (hy : y < rows.length) (hx : x < w) : rows.flatten[y * w + x]? = rows[y][x]? := by
  induction rows generalizing y with
  | nil => exact absurd hy (Nat.not_lt_zero y)
  | cons r rows ih =>
    obtain ⟨hr, hrows⟩ := List.forall_mem_cons.mp hw
    rw [List.flatten_cons]
    cases y with
    | zero => rw [Nat.zero_mul, Nat.zero_add, List.getElem?_append_left (hr ▸ hx), List.getElem_cons_zero]
    | succ y =>
      rw [List.getElem?_append_right (by rw [hr, Nat.succ_mul]; omega), hr,
        show (y + 1) * w + x - w = y * w + x by rw [Nat.succ_mul]; omega]
      exact ih hrows (Nat.lt_of_succ_lt_succ hy)

theorem frameRows_length (fb : Frame) : ∀ r ∈ fb.toList.map Vector.toList, r.length = 64 := by
  simp

theorem frameBits_length (s : State) : (frameBits s).length = 2048 := by
  rw [frameBits, List.length_flatten, List.map_eq_replicate_iff.mpr (frameRows_length s.fb), List.sum_replicate]
  simp

/-- The bitmap is row-major (R230). -/
theorem frameBits_getElem? (s : State) {y x : Nat} (hy : y < 32) (hx : x < 64) :
    (frameBits s)[y * 64 + x]? = some (s.fb.pixel y x) := by
  rw [frameBits, getElem?_flatten_of_length (frameRows_length s.fb) (by simpa using hy) hx, Frame.pixel,
    dif_pos ⟨hy, hx⟩]
  simp [hx]

/-- Settles O50. -/
theorem queriesReportAndChangeNothing : Obligations.QueriesReportAndChangeNothing :=
  fun s => ⟨rfl, rfl, rfl, frameBits s, rfl, frameBits_length s, fun _ hy _ hx => frameBits_getElem? s hy hx⟩

/-! ## Reset -/

theorem unlistedByte_eq (font : Vector Byte 80) (a : Nat) : unlistedByte font a = if h : a < 80 then font[a] else 0 := by
  unfold unlistedByte
  split
  next h => rw [Vector.getElem?_eq_getElem h, Option.getD_some]
  next h => rw [Vector.getElem?_eq_none (by omega), Option.getD_none]

/-- A state that lists no byte reads as the reset contents (R44). -/
theorem readByte_of_mem_nil {s : State} (h : s.mem = []) (a : Nat) :
    s.readByte a = if h : a < 80 then s.params.font[a] else 0 := by
  rw [State.readByte, h, Memory.read_nil, unlistedByte_eq]

/-- Settles O48. -/
theorem resetOperationRestoresResetState : Obligations.ResetOperationRestoresResetState :=
  fun s => ⟨s.resetCore, rfl, rfl, readByte_of_mem_nil (s := s.resetCore) rfl⟩

/-- Settles O47: each element is the field `State.resetWith` gives. -/
theorem resetStateIsTheSpecs : Obligations.ResetStateIsTheSpecs := by
  have hreg : ∀ r, State.reset.reg r = 0 := fun r => Vector.getElem_replicate r.isLt
  have hpixel : ∀ py px, State.reset.fb.pixel py px = false := Frame.pixel_clear
  have hkey : ∀ k (h : k < 16), State.reset.key[k] = false := fun k h => Vector.getElem_replicate h
  exact ⟨hreg, rfl, rfl, rfl, rfl, readByte_of_mem_nil (s := State.reset) rfl, hpixel, hkey, rfl, rfl, rfl, rfl, rfl⟩

end Sys2Proof.Machine
end

section
/-! PROOFS about fetch, the cycle and the invariant (spec/40_execution_cycle.md, spec/10_state.md). -/

namespace Sys2Proof.Machine

/-! ## Fetch -/

theorem wordAtPc_toNat (s : State) :
    (wordAtPc s).toNat = if s.params.fetchBigEndian
      then (s.readByte s.pc.toNat).toNat * 256 + (s.readByte (s.pc.toNat + 1)).toNat
      else (s.readByte (s.pc.toNat + 1)).toNat * 256 + (s.readByte s.pc.toNat).toNat := by
  unfold wordAtPc
  split <;> exact append_toNat _ _

/-- Settles O8: `PC` is fetchable up to `0xFFE`, and past it the offending address is the larger of `PC` and `0x1000`. -/
theorem fetchReadsTwoBytes : Obligations.FetchReadsTwoBytes := by
  intro s
  refine ⟨fun h => ⟨wordAtPc s, fetch_ok h, wordAtPc_toNat s⟩, fun h => ?_, fun h => ?_⟩
  · rw [fetch_error (by omega), h]
    rfl
  · rw [fetch_error (by omega), Nat.max_eq_left (by omega)]

/-! ## The machine's step by what is pending (R233) -/

theorem step_of_inbox_nil {s : State} (h : s.inbox = []) :
    step s = stepOp (Config.tickDue s.draws) (Config.randomByte s.draws) { s with draws := s.draws + 1 } := by
  rw [step, cycle, h]

theorem step_of_inbox_cons {s : State} {op : HostOp} {rest : List HostOp} (h : s.inbox = op :: rest) :
    step s = performOp op { s with inbox := rest } := by
  rw [step, cycle, h]

/-- Settles O9: the word at `PC` is the same before and after the draw counter or the inbox moves. -/
theorem stepRunsDecodedInstruction : Obligations.StepRunsDecodedInstruction := by
  rintro s ⟨hrun, hawait⟩ hpc
  have hgate : ¬(s.await = true ∨ 0xFFE < s.pc.toNat) := by
    rw [hawait]
    simpa using hpc
  refine ⟨fun hnil => ?_, fun tickDue rnd rest hcons => ?_⟩
  · rw [step_of_inbox_nil hnil]
    exact stepOp_executes (s := { s with draws := s.draws + 1 }) hrun hgate _ _
  · rw [step_of_inbox_cons hcons]
    exact stepOp_executes (s := { s with inbox := rest }) hrun hgate _ _

/-- Settles O10. -/
theorem stepNotRunningIsIdle : Obligations.StepNotRunningIsIdle := by
  intro s tickDue rnd hrun
  refine ⟨stepOp_idle hrun tickDue rnd, congrArg HostReply.status (if_pos hrun), fun hnil => ?_⟩
  rw [step_of_inbox_nil hnil]
  exact stepOp_idle (s := { s with draws := s.draws + 1 }) hrun _ _

/-- Settles O12: behind the fetch gate the await gate ends the step in the ticked state. -/
theorem waitingStepExecutesNothing : Obligations.WaitingStepExecutesNothing := by
  intro s tickDue rnd hrun hawait hpc
  have hstep : stepOp tickDue rnd s = .next (s.begun tickDue rnd) := by
    rw [stepOp_running hrun, if_neg (by omega), if_pos hawait]
  have hstatus : s.fault = none → stepStatus s (s.begun tickDue rnd) = .waiting := by
    intro hfault
    have hfault' : (s.begun tickDue rnd).fault = none := hfault
    simp [stepStatus, hrun, hawait, hfault']
  exact ⟨_, hstep, rfl, s.begun_dt_toNat tickDue rnd, s.begun_st_toNat tickDue rnd,
    fun hfault => congrArg HostReply.status (hstatus hfault)⟩

/-- The first offending address of a fetch at `pc` (R82). -/
theorem firstOffending_fetch {pc : Nat} (h : 0xFFE < pc) : FirstOffending pc 2 (max pc 0x1000) :=
  ⟨by omega, by omega, by omega, fun b hb hlt => by omega⟩

/-- Settles O13: the ticked state with the error of the fetch entered. -/
theorem fetchOutOfBoundsHalts : Obligations.FetchOutOfBoundsHalts := by
  intro s tickDue rnd hrun hpc
  have hstep := (stepOp_running hrun tickDue rnd).trans (if_pos hpc)
  have hstatus : stepStatus s ((s.begun tickDue rnd).halt (.outOfBounds (max s.pc.toNat 0x1000))) =
      .fatal (.outOfBounds (max s.pc.toNat 0x1000)) := by
    simp [stepStatus, hrun]
  exact ⟨_, _, hstep, firstOffending_fetch hpc, ⟨rfl, rfl⟩, rfl, s.begun_dt_toNat tickDue rnd,
    s.begun_st_toNat tickDue rnd, congrArg HostReply.status hstatus⟩

/-! ## A placed word -/

theorem decodeTableWord_eq (w : Nat) : decodeTableWord 16 w = some (decodeWord (BitVec.ofNat 16 (w % 2 ^ 16))) := by
  simp only [decodeTableWord, decodeBytes, joinBytes_splitWord]

theorem readByte_storeWordAtPc {s : State} (w : Word) (h : s.mem.Pairwise fun c d => c.1 < d.1) (a : Nat) :
    (s.storeWordAtPc w).readByte a =
      if s.pc.toNat + 1 = a then (splitWord s.params.fetchBigEndian w).2
      else if s.pc.toNat = a then (splitWord s.params.fetchBigEndian w).1 else s.readByte a := by
  rw [State.storeWordAtPc, State.readByte_writeByte _ _ _ _ (Memory.pairwise_write h), State.readByte_writeByte _ _ _ _ h]

/-- Where a word was stored it is the next word fetched, in either byte order. -/
theorem wordAtPc_storeWordAtPc {s : State} (w : Word) (h : s.mem.Pairwise fun c d => c.1 < d.1) :
    wordAtPc (s.storeWordAtPc w) = w := by
  have hword : wordAtPc (s.storeWordAtPc w) = joinBytes s.params.fetchBigEndian
      ((s.storeWordAtPc w).readByte s.pc.toNat) ((s.storeWordAtPc w).readByte (s.pc.toNat + 1)) := rfl
  rw [hword, readByte_storeWordAtPc w h, readByte_storeWordAtPc w h, if_neg (by omega), if_pos rfl, if_pos rfl,
    joinBytes_splitWord]

theorem readyToRun_pc_le (s : State) (w : Word) : (s.readyToRun w).pc.toNat ≤ 0xFFE := by
  show (if s.pc.toNat ≤ 0xFFE then s.pc else 0x0200).toNat ≤ 0xFFE
  split
  next h => exact h
  · decide

/-- Settles O60: the prepared state meets the hypotheses of O9, and the word it fetches is the one stored. -/
theorem placedWordIsRunNext : Obligations.PlacedWordIsRunNext := by
  intro s w _ hwf
  have hword : wordAtPc (s.withFetchWord 16 w) = BitVec.ofNat 16 (w % 2 ^ 16) := wordAtPc_storeWordAtPc _ hwf.1
  have hrun := (stepRunsDecodedInstruction (s.withFetchWord 16 w) ⟨rfl, rfl⟩ (readyToRun_pc_le s _)).1 rfl
  rw [hword] at hrun
  exact ⟨_, decodeTableWord_eq w, hrun⟩

/-! ## Every state has a next state -/

theorem exec_next (i : Instr) (s : State) : ∃ t, exec i s = .next t :=
  (exec_next_keepsUnwrittenTimers i s).imp fun _ h => h.1

theorem stepOp_next (tickDue : Bool) (rnd : Byte) (s : State) : ∃ t, stepOp tickDue rnd s = .next t := by
  by_cases hrun : s.life = .running
  · rw [stepOp_running hrun]
    split
    · exact ⟨_, rfl⟩
    · split
      · exact ⟨_, rfl⟩
      · exact exec_next _ _
  · exact ⟨s, stepOp_idle hrun tickDue rnd⟩

theorem performOp_next (op : HostOp) (s : State) : ∃ t, performOp op s = .next t := by
  cases op with
  | step tickDue rnd => exact stepOp_next tickDue rnd s
  | _ => exact ⟨_, rfl⟩

/-- Settles O59. -/
theorem everyStateHasANextState : Obligations.EveryStateHasANextState := by
  intro s
  cases h : s.inbox with
  | nil =>
    rw [step_of_inbox_nil h]
    exact stepOp_next _ _ _
  | cons op rest =>
    rw [step_of_inbox_cons h]
    exact performOp_next op _

/-! ## The invariant: what keeps a state legal -/

/-- Everything `Legal` speaks of but `PC` and the wait flag is as before. -/
def SameCore (s t : State) : Prop :=
  t.params = s.params ∧ t.stack = s.stack ∧ t.sp = s.sp ∧ t.mem = s.mem ∧ t.life = s.life ∧ t.fault = s.fault

/-- A change of `PC` and the wait flag within their ranges, and of anything `Legal` does not speak of. -/
theorem Legal.of_sameCore {s t : State} (hs : Legal s) (h : SameCore s t) (hpc : t.pc.toNat ≤ 0x10FE)
    (hawait : t.await = true → t.pc.toNat ≤ 0xFFE) : Legal t := by
  obtain ⟨hparams, hstack, hsp, hmem, hlife, hfault⟩ := h
  constructor
  · rw [hparams]; exact hs.params
  · rw [hstack, hparams]; exact hs.stack_length
  · rw [hsp, hparams]; exact hs.sp_le
  · rw [hstack]; exact hs.stack_le
  · exact hpc
  · exact hawait
  · rw [hmem, hparams]; exact hs.mem_wf
  · rw [hfault, hlife]; exact hs.fault_halted
  · rw [hfault]; exact hs.fault_range

/-- A change of nothing `Legal` speaks of. -/
theorem Legal.of_same {s t : State} (hs : Legal s) (h : SameCore s t) (hpc : t.pc = s.pc) (hawait : t.await = s.await) :
    Legal t :=
  hs.of_sameCore h (hpc ▸ hs.pc_le) (hpc ▸ hawait ▸ hs.await_pc)

/-- An error whose address is in R27's range may be entered in any legal state. -/
theorem Legal.halt {s : State} (hs : Legal s) {e : FatalError} (he : latchInRange (some e) = true) : Legal (s.halt e) :=
  { hs with fault_halted := fun _ => rfl, fault_range := he }

/-- The environment's data (the draw on its port, the draw counter, the inbox) is nothing `Legal` speaks of. -/
theorem Legal.with_environment {s : State} (hs : Legal s) (rnd : Byte) (draws : Nat) (inbox : List HostOp) :
    Legal { s with rnd := rnd, draws := draws, inbox := inbox } :=
  { hs with }

theorem Legal.with_mem {s : State} (hs : Legal s) {mem : Memory} (hmem : Memory.wf s.params.font mem) :
    Legal { s with mem := mem } :=
  { hs with mem_wf := hmem }

/-- A 16-bit address past memory is in the range of the latch (R27). -/
theorem latchInRange_outOfBounds (a : Word) : latchInRange (some (.outOfBounds (max a.toNat 0x1000))) = true := by
  have := a.isLt
  simp only [latchInRange, decide_eq_true_eq]
  omega

theorem blockOutcome_legal {s completed aborted : State} (len : Nat) (hc : Legal completed) (ha : Legal aborted) :
    Legal (blockOutcome (blockError (effAddr s 0) len) completed aborted) := by
  cases he : blockError (effAddr s 0) len with
  | none => exact hc
  | some e =>
    obtain ⟨-, rfl⟩ := blockError_some he
    exact ha.halt (latchInRange_outOfBounds s.i)

/-! ## The invariant: instructions -/

/-- An instruction that executes has a fetchable `PC`, so `PC` moves on within its range. -/
theorem pc_add_le {pc k : Word} (h : pc.toNat ≤ 0xFFE) (hk : k.toNat ≤ 4) : (pc + k).toNat ≤ 0x1002 := by
  rw [BitVec.toNat_add]
  omega

theorem skip_pc_le {pc : Word} (h : pc.toNat ≤ 0xFFE) (c : Bool) : (if c then pc + 4 else pc + 2).toNat ≤ 0x10FE := by
  cases c
  · exact (pc_add_le h (by decide)).trans (by decide)
  · exact (pc_add_le h (by decide)).trans (by decide)

theorem addrOperand_le (nnn : Addr12) : (addrOperand nnn).toNat ≤ 0x10FE := by
  have := nnn.isLt
  rw [addrOperand_toNat]
  omega

/-- A popped return address is one of the stack's, or the `0` of an empty stack (R20). -/
theorem pop_le {s : State} (hs : Legal s) : (pop s).1.toNat ≤ 0x1000 := by
  by_cases h : s.sp = 0
  · rw [pop_empty h]
    exact Nat.zero_le _
  · rw [pop_entry h]
    cases hj : s.stack[s.sp.toNat - 1]? with
    | none => exact Nat.zero_le _
    | some a => exact hs.stack_le a (List.mem_of_getElem? hj)

theorem pop_sp_le (s : State) : (pop s).2.sp.toNat ≤ s.sp.toNat := by
  by_cases h : s.sp = 0
  · rw [pop_empty h]
  · rw [pop_entry h]
    have hpos : 0 < s.sp.toNat := Nat.pos_of_ne_zero fun h0 => h (BitVec.eq_of_toNat_eq h0)
    show (s.sp - 1).toNat ≤ s.sp.toNat
    bv_omega

theorem ret_legal {s : State} (hs : Legal s) (hawait : s.await = false) : Legal ((pop s).2.jump (pop s).1) := by
  have hpc := pop_le hs
  have hsp := (pop_sp_le s).trans hs.sp_le
  rw [pop_frame s]
  exact { hs with
    sp_le := hsp
    pc_le := hpc.trans (by decide)
    await_pc := fun h => absurd (hawait.symm.trans h) (by decide) }

theorem call_legal {s : State} (hs : Legal s) (nnn : Addr12) (hawait : s.await = false) (hpc : s.pc.toNat ≤ 0xFFE)
    (hroom : s.sp.toNat < s.params.stackDepth) :
    Legal { s with stack := s.stack.set s.sp.toNat (s.pc + 2), sp := s.sp + 1, pc := addrOperand nnn } := by
  have hdepth := hs.params.2
  refine { hs with
    stack_length := (List.length_set ..).trans hs.stack_length
    sp_le := ?_
    stack_le := fun a ha => ?_
    pc_le := addrOperand_le nnn
    await_pc := fun h => absurd (hawait.symm.trans h) (by decide) }
  · show (s.sp + 1).toNat ≤ s.params.stackDepth
    bv_omega
  · rcases List.mem_or_eq_of_mem_set ha with hold | rfl
    · exact hs.stack_le a hold
    · bv_omega

/-- Every instruction that executes leaves a legal state legal. -/
theorem exec_next_legal {s : State} (hs : Legal s) (hawait : s.await = false) (hpc : s.pc.toNat ≤ 0xFFE) (i : Instr) :
    ∃ t, exec i s = .next t ∧ Legal t := by
  have moved {t : State} (h : SameCore s t) (hle : t.pc.toNat ≤ 0x10FE) (ha : t.await = s.await) : Legal t :=
    hs.of_sameCore h hle fun htrue => absurd (hawait.symm.trans (ha.symm.trans htrue)) (by decide)
  have advanced {t : State} (h : SameCore s t) (hp : t.pc = s.pc + 2) (ha : t.await = s.await) : Legal t :=
    moved h (hp ▸ (pc_add_le hpc (by decide)).trans (by decide)) ha
  have skipped (c : Bool) : Legal (s.skipIf c) := moved ⟨rfl, rfl, rfl, rfl, rfl, rfl⟩ (skip_pc_le hpc c) rfl
  cases i with
  | ret => exact ⟨_, rfl, ret_legal hs hawait⟩
  | jp nnn => exact ⟨_, rfl, moved ⟨rfl, rfl, rfl, rfl, rfl, rfl⟩ (addrOperand_le nnn) rfl⟩
  | jpV0 nnn =>
    obtain ⟨-, -, -, target, -, hle, hexec⟩ := jumpsSetPc nnn s
    exact ⟨_, hexec, moved ⟨rfl, rfl, rfl, rfl, rfl, rfl⟩ hle rfl⟩
  | call nnn =>
    refine ⟨_, execCall_eq nnn s, ?_⟩
    split
    · exact hs.halt rfl
    next hroom => exact call_legal hs nnn hawait hpc (by omega)
  | seImm x kk => exact ⟨_, rfl, skipped _⟩
  | sneImm x kk => exact ⟨_, rfl, skipped _⟩
  | seReg x y => exact ⟨_, rfl, skipped _⟩
  | sneReg x y => exact ⟨_, rfl, skipped _⟩
  | skp x => exact ⟨_, rfl, skipped _⟩
  | sknp x => exact ⟨_, rfl, skipped _⟩
  | ldVxK x => exact ⟨_, rfl, hs.of_sameCore ⟨rfl, rfl, rfl, rfl, rfl, rfl⟩ hs.pc_le fun _ => hpc⟩
  | drw x y n =>
    exact ⟨_, execDrw_eq x y n s, blockOutcome_legal _ (advanced ⟨rfl, rfl, rfl, rfl, rfl, rfl⟩ rfl rfl) hs⟩
  | ldB x =>
    have hmem := hs.with_mem (storeBytes_wf (decimalDigits (s.reg x)) s (effAddr s 0) hs.mem_wf)
    refine ⟨_, execLdB_eq x s, blockOutcome_legal _ ?_ hmem⟩
    exact (advanced (t := { s with pc := s.pc + 2 }) ⟨rfl, rfl, rfl, rfl, rfl, rfl⟩ rfl rfl).with_mem hmem.mem_wf
  | ldMemVx x =>
    have hmem := hs.with_mem (storeBytes_wf (regGroup s x) s (effAddr s 0) hs.mem_wf)
    refine ⟨_, execLdMemVx_eq x s, blockOutcome_legal _ ?_ hmem⟩
    exact (advanced (t := { s with i := s.i + BitVec.ofNat 16 (x.toNat + 1), pc := s.pc + 2 })
      ⟨rfl, rfl, rfl, rfl, rfl, rfl⟩ rfl rfl).with_mem hmem.mem_wf
  | ldVxMem x =>
    refine ⟨_, execLdVxMem_eq x s, blockOutcome_legal _ (advanced ⟨rfl, rfl, rfl, rfl, rfl, rfl⟩ rfl rfl) ?_⟩
    exact hs.of_same ⟨rfl, rfl, rfl, rfl, rfl, rfl⟩ rfl rfl
  | _ => exact ⟨_, rfl, advanced ⟨rfl, rfl, rfl, rfl, rfl, rfl⟩ rfl rfl⟩

/-! ## The invariant: host operations and the machine's step -/

theorem begun_legal {s : State} (hs : Legal s) (tickDue : Bool) (rnd : Byte) : Legal (s.begun tickDue rnd) :=
  hs.of_same ⟨rfl, rfl, rfl, rfl, rfl, rfl⟩ rfl rfl

theorem stepOp_legal {s t : State} {tickDue : Bool} {rnd : Byte} (hs : Legal s) (h : stepOp tickDue rnd s = .next t) :
    Legal t := by
  rcases stepOp_cases h with ⟨-, rfl⟩ | ⟨-, -, rfl⟩ | ⟨-, -, -, rfl⟩ | ⟨-, hpc, hawait, hexec⟩
  · exact hs
  · exact (begun_legal hs tickDue rnd).halt (latchInRange_outOfBounds s.pc)
  · exact begun_legal hs tickDue rnd
  · exact holds_of_next (exec_next_legal (begun_legal hs tickDue rnd) hawait hpc _) hexec

theorem resetWith_legal {p : Params} (hp : p.legal) : Legal (State.resetWith p) where
  params := hp
  stack_length := List.length_replicate
  sp_le := Nat.zero_le _
  stack_le a ha := by
    rw [List.eq_of_mem_replicate ha]
    decide
  pc_le := by show (0x0200 : Word).toNat ≤ 0x10FE; decide
  await_pc h := by cases h
  mem_wf := Memory.wf_nil p.font
  fault_halted h := absurd rfl h
  fault_range := rfl

/-- Settles O57. -/
theorem resetStateIsLegal : Obligations.ResetStateIsLegal := resetWith_legal (p := defaultParams) (by decide)

theorem setKeyStateOp_legal {s : State} (hs : Legal s) (key : Nat) (pressed tickDue : Bool) :
    Legal (setKeyStateOp key pressed tickDue s) := by
  rcases setKeyStateOp_cases key pressed tickDue s with ⟨-, heq⟩ | ⟨-, -, -, hawait, -, heq⟩ | ⟨-, -, heq⟩
  · rwa [heq]
  · have hpc : s.pc.toNat ≤ 0xFFE := hs.await_pc hawait
    rw [heq, resolve_ok (s := s.setKey key true) hpc]
    exact hs.of_sameCore ⟨rfl, rfl, rfl, rfl, rfl, rfl⟩ ((pc_add_le hpc (by decide)).trans (by decide)) nofun
  · rw [heq]
    exact hs.of_same ⟨rfl, rfl, rfl, rfl, rfl, rfl⟩ rfl rfl

theorem loadBlock_legal {s : State} (hs : Legal s) (offset : Nat) (bytes : List Byte) : Legal (loadBlock s offset bytes) := by
  by_cases h : offset + bytes.length ≤ 0x1000
  · rw [loadBlock_of_fits h, storeBlock_frame]
    exact hs.with_mem (storeBlock_wf bytes s offset hs.mem_wf h)
  · rwa [loadBlock_of_not_fits (by omega)]

theorem startOp_legal {s : State} (hs : Legal s) : Legal (startOp s) := by
  rw [startOp_eq]
  refine { hs with fault_halted := fun hfault => ?_ }
  exact (if_neg hfault).trans (hs.fault_halted hfault)

theorem stopOp_legal {s : State} (hs : Legal s) : Legal (stopOp s) := by
  rw [stopOp_eq]
  refine { hs with fault_halted := fun hfault => ?_ }
  have hlife : s.life = .halted := hs.fault_halted hfault
  simp [hlife]

theorem performOp_legal {op : HostOp} {s t : State} (hs : Legal s) (h : performOp op s = .next t) : Legal t := by
  cases op with
  | step tickDue rnd => exact stepOp_legal hs h
  | reset =>
    obtain rfl : s.resetCore = t := Host.Outcome.next.inj h
    exact (resetWith_legal hs.params).with_environment s.rnd s.draws s.inbox
  | start => exact Host.Outcome.next.inj h ▸ startOp_legal hs
  | stop => exact Host.Outcome.next.inj h ▸ stopOp_legal hs
  | loadProgram bytes => exact Host.Outcome.next.inj h ▸ loadBlock_legal hs 0x200 bytes
  | setKeyState key pressed tickDue => exact Host.Outcome.next.inj h ▸ setKeyStateOp_legal hs key pressed tickDue
  | getFrame => exact Host.Outcome.next.inj h ▸ hs
  | getDebugState => exact Host.Outcome.next.inj h ▸ hs

/-- Settles O58: taking a draw or an operation off the inbox is nothing `Legal` speaks of, and each operation keeps it. -/
theorem stepKeepsStateLegal : Obligations.StepKeepsStateLegal := by
  intro s t hs h
  cases hinbox : s.inbox with
  | nil =>
    rw [step_of_inbox_nil hinbox] at h
    exact stepOp_legal (hs.with_environment s.rnd (s.draws + 1) s.inbox) h
  | cons op rest =>
    rw [step_of_inbox_cons hinbox] at h
    exact performOp_legal (hs.with_environment s.rnd s.draws rest) h

end Sys2Proof.Machine
end

section
/-! PROOFS about calls, the remaining register instructions, timers and the wait (spec/41_control_flow.md,
spec/42_register_alu.md, spec/43_index_memory.md, spec/45_keypad.md, spec/46_timers.md). -/

namespace Sys2Proof.Machine

/-! ## Calls -/

theorem exec_call_room {s : State} (nnn : Addr12) (h : s.sp.toNat < s.params.stackDepth) :
    exec (.call nnn) s =
      .next { s with stack := s.stack.set s.sp.toNat (s.pc + 2), sp := s.sp + 1, pc := addrOperand nnn } :=
  (execCall_eq nnn s).trans (congrArg Host.Outcome.next (if_neg (by omega)))

theorem exec_call_full {s : State} (nnn : Addr12) (h : s.params.stackDepth ≤ s.sp.toNat) :
    exec (.call nnn) s = .next (s.halt .stackOverflow) :=
  (execCall_eq nnn s).trans (congrArg Host.Outcome.next (if_pos h))

/-- Settles O16: the pushed entry is the one at `SP`, which the stack has. -/
theorem callPushesReturnAddress : Obligations.CallPushesReturnAddress := by
  intro nnn s hlen hroom
  refine ⟨decodeWord_call nnn, _, exec_call_room nnn hroom, rfl, fun _ => rfl, addrOperand_toNat nnn,
    List.length_set .., fun j => ?_⟩
  rw [List.getElem?_set]
  by_cases hj : j = s.sp.toNat
  · rw [if_pos hj.symm, if_pos (by omega), if_pos hj]
  · rw [if_neg (Ne.symm hj), if_neg hj]

/-- Settles O17. -/
theorem callOnFullStackOverflows : Obligations.CallOnFullStackOverflows :=
  fun nnn _ hfull => exec_call_full nnn hfull.ge

/-- A pop right after a push gives the pushed entry and the depth before it, where `SP` does not wrap. -/
theorem pop_pushed {s : State} (a : Word) (hlen : s.sp.toNat < s.stack.length) (hsp : s.sp.toNat < 255) :
    pop { s with stack := s.stack.set s.sp.toNat a, sp := s.sp + 1 } =
      (a, { s with stack := s.stack.set s.sp.toNat a }) := by
  have hne : s.sp + 1 ≠ 0 := by bv_omega
  have hidx : (s.sp + 1).toNat - 1 = s.sp.toNat := by bv_omega
  rw [pop_entry hne, hidx, List.getElem?_set_self hlen, BitVec.add_sub_cancel, Option.getD_some]

theorem exec_ret_of_pop {s t : State} {a : Word} (h : pop s = (a, t)) : exec .ret s = .next (t.jump a) := by
  show execRet s = _
  rw [execRet, h]

/-- Settles O18: the depth is at most 255, so `00EE` pops the entry `2nnn` pushed; the entries below it are as before. -/
theorem callThenRetReturns : Obligations.CallThenRetReturns := by
  rintro nnn s ⟨-, hdepth⟩ hlen hroom
  have hpop := pop_pushed (s := { s with pc := addrOperand nnn }) (s.pc + 2) (hroom.trans_eq hlen.symm)
    (hroom.trans_le hdepth)
  exact ⟨_, _, exec_call_room nnn hroom, exec_ret_of_pop hpop, rfl, fun j hj => List.getElem?_set_ne hj.ne'⟩

/-! ## Logic -/

/-- A register write and the advance leave the written byte there. -/
theorem State.reg_setReg_advance_same (s : State) (x : Nibble) (b : Byte) : (s.setReg x b).advance.reg x = b := by
  rw [State.reg_advance, State.reg_setReg, if_pos rfl]

/-- Settles O22: each is one register write and the advance, bit by bit. -/
theorem logicWritesVxOnly : Obligations.LogicWritesVxOnly := by
  intro x y s
  refine ⟨decodeWord_orReg x y, decodeWord_andReg x y, decodeWord_xorReg x y,
    ⟨_, rfl, rfl, fun _ => rfl, fun k => ?_, fun _ => s.reg_setReg_advance_of_ne _⟩,
    ⟨_, rfl, rfl, fun _ => rfl, fun k => ?_, fun _ => s.reg_setReg_advance_of_ne _⟩,
    ⟨_, rfl, rfl, fun _ => rfl, fun k => ?_, fun _ => s.reg_setReg_advance_of_ne _⟩⟩
  · rw [State.reg_setReg_advance_same, BitVec.getLsbD_or]
  · rw [State.reg_setReg_advance_same, BitVec.getLsbD_and]
  · rw [State.reg_setReg_advance_same, BitVec.getLsbD_xor, Bool.xor]

/-- Settles O29: the draw on the port is masked bit by bit. -/
theorem rndMasksTheDraw : Obligations.RndMasksTheDraw := by
  intro x kk s draw
  refine ⟨decodeWord_rnd x kk, _, rfl, rfl, fun _ => rfl, fun k => ?_, fun _ => State.reg_setReg_advance_of_ne _ _⟩
  rw [State.reg_setReg_advance_same, BitVec.getLsbD_and]

/-! ## Arithmetic with a flag -/

theorem shiftRight_one_toNat (b : Byte) : (b >>> 1).toNat = b.toNat / 2 := by
  rw [BitVec.toNat_ushiftRight, Nat.shiftRight_eq_div_pow, pow_one]

/-- Settles O25: the difference wraps, and the not-borrow is written over it where `x` is `F`. -/
theorem subnWritesDifferenceThenNotBorrow : Obligations.SubnWritesDifferenceThenNotBorrow := by
  intro x y s
  refine ⟨decodeWord_subn x y, _, rfl, rfl, fun _ => rfl, fun r => ?_⟩
  rw [resultThenFlag_reg, ← sub_toNat_int]
  simp only [apply_ite BitVec.toNat, notBorrowFlag_toNat, Nat.cast_ite, Nat.cast_zero, Nat.cast_one]

/-- Settles O26: bit 0 goes to `VF`, and the halved `Vy` is written over it where `x` is `F`. -/
theorem shrWritesFlagThenHalf : Obligations.ShrWritesFlagThenHalf := by
  intro x y s
  refine ⟨decodeWord_shr x y, _, rfl, rfl, fun _ => rfl, fun r => ?_⟩
  rw [flagThenResult_reg, apply_ite BitVec.toNat, apply_ite BitVec.toNat, lowBitFlag_toNat, shiftRight_one_toNat]

/-- The result, written first, stands where it does not go to `VF`. -/
theorem resultThenFlag_regX (s : State) {x : Nibble} (h : x ≠ 0xF) (result flag : Byte) :
    (resultThenFlag s x result flag).reg x = result := by
  rw [resultThenFlag_reg, if_neg h, if_pos rfl]

/-- The result, written last, stands. -/
theorem flagThenResult_regX (s : State) (x : Nibble) (result flag : Byte) :
    (flagThenResult s x result flag).reg x = result := by
  rw [flagThenResult_reg, if_pos rfl]

theorem add_carry_exact (a b : Byte) : (a + b).toNat + 256 * (carryFlag a b).toNat = a.toNat + b.toNat := by
  have := a.isLt
  have := b.isLt
  rw [carryFlag_toNat, BitVec.toNat_add]
  split <;> omega

theorem sub_notBorrow_exact (a b : Byte) :
    (a - b).toNat + b.toNat = a.toNat + 256 * (1 - (notBorrowFlag a b).toNat) := by
  have := a.isLt
  have := b.isLt
  rw [notBorrowFlag_toNat, BitVec.toNat_sub]
  split <;> omega

theorem shr_lowBit_exact (b : Byte) : 2 * (b >>> 1).toNat + (lowBitFlag b).toNat = b.toNat := by
  rw [shiftRight_one_toNat, lowBitFlag_toNat]
  omega

theorem shl_highBit_exact (b : Byte) : (b <<< 1).toNat + 256 * (highBitFlag b).toNat = 2 * b.toNat := by
  have := b.isLt
  rw [shiftLeft_one_toNat, highBitFlag_toNat]
  omega

/-- Settles O28: both writes stand, and each pair of result and flag is exact. -/
theorem flagAndResultGiveExactValue : Obligations.FlagAndResultGiveExactValue := by
  intro x y s t hx
  refine ⟨?_, ?_, ?_, ?_, ?_⟩ <;> intro h <;> obtain rfl : _ = t := Host.Outcome.next.inj h
  · rw [resultThenFlag_regX s hx, resultThenFlag_regF]
    exact add_carry_exact (s.reg x) (s.reg y)
  · rw [resultThenFlag_regX s hx, resultThenFlag_regF]
    exact sub_notBorrow_exact (s.reg x) (s.reg y)
  · rw [resultThenFlag_regX s hx, resultThenFlag_regF]
    exact sub_notBorrow_exact (s.reg y) (s.reg x)
  · rw [flagThenResult_regX, flagThenResult_regF s hx]
    exact shr_lowBit_exact (s.reg y)
  · rw [flagThenResult_regX, flagThenResult_regF s hx]
    exact shl_highBit_exact (s.reg y)

/-! ## The index register, the wait, the timers -/

/-- Settles O31: one write of `I`, the 16-bit sum, and the advance. -/
theorem addIWrapsWithoutFlag : Obligations.AddIWrapsWithoutFlag := by
  intro x s
  refine ⟨decodeWord_addI x, _, rfl, rfl, fun _ => rfl, ?_⟩
  exact (BitVec.toNat_add ..).trans (by rw [wideOperand_toNat])

/-- Settles O41. -/
theorem ldVxKEntersTheWait : Obligations.LdVxKEntersTheWait := fun x _ => ⟨decodeWord_ldVxK x, rfl⟩

theorem soundActive_iff (s : State) : soundActive s = true ↔ 0 < s.st.toNat := by
  rw [soundActive, timerActive, bne_iff_ne, Nat.pos_iff_ne_zero]
  exact BitVec.toNat_ne_iff_ne.symm

/-- Settles O46: each is one write and the advance. -/
theorem timerMovesWriteTheirTarget : Obligations.TimerMovesWriteTheirTarget := by
  intro x s
  exact ⟨decodeWord_ldVxDt x, decodeWord_ldDtVx x, decodeWord_ldStVx x,
    ⟨_, rfl, rfl, fun _ => rfl, s.reg_setReg x s.dt⟩, rfl, rfl, soundActive_iff _⟩

end Sys2Proof.Machine
end

section
/-! PROOFS about the block accesses at `I` (spec/43_index_memory.md R143 to R146). -/

namespace Sys2Proof.Machine

/-! ## Addresses -/

theorem effAddr_eq_add (s : State) (k : Nat) : effAddr s k = effAddr s 0 + k := rfl

/-- `I` moves past a block modulo 65536 (R145, R146). -/
theorem index_past_block_toNat (i : Word) (x : Nibble) :
    (i + BitVec.ofNat 16 (x.toNat + 1)).toNat = (i.toNat + x.toNat + 1) % 65536 := by
  rw [BitVec.toNat_add, BitVec.toNat_ofNat, Nat.add_mod_mod, Nat.add_assoc]

/-- An address inside the block of a register group is that of one of its registers. -/
theorem exists_inGroup {x : Nibble} {addr a : Nat} (hle : addr ≤ a) (hlt : a < addr + (x.toNat + 1)) :
    ∃ r : Nibble, InGroup r x ∧ addr + r.toNat = a := by
  have hx : x.toNat < 16 := x.isLt
  have hr : (BitVec.ofNat 4 (a - addr)).toNat = a - addr := by
    rw [BitVec.toNat_ofNat, Nat.mod_eq_of_lt (by omega)]
  exact ⟨BitVec.ofNat 4 (a - addr), by rw [InGroup, hr]; omega, by rw [hr]; omega⟩

/-! ## How a block access ends -/

theorem blockOutcome_of_inBounds {s : State} {len : Nat} (h : BlockInBounds s len) (completed aborted : State) :
    blockOutcome (blockError (effAddr s 0) len) completed aborted = completed := by
  rw [blockError_of_inBounds h, blockOutcome]

theorem blockOutcome_of_firstOffending {addr len a : Nat} (h : FirstOffending addr len a) (completed aborted : State) :
    blockOutcome (blockError addr len) completed aborted = aborted.halt (.outOfBounds a) := by
  rw [blockError_eq_of_firstOffending h, blockOutcome]

/-- Completed or not, memory after a block store holds the bytes whose address is in bounds, and is else as before. -/
theorem readByte_blockOutcome_stored {s : State} (addr : Nat) (bytes : List Byte) (e : Option FatalError) (i pc : Word)
    (hwf : Memory.wf s.params.font s.mem) (x : Nat) :
    (blockOutcome e { s with mem := (storeBytes s addr bytes).1.mem, i := i, pc := pc }
      { s with mem := (storeBytes s addr bytes).1.mem }).readByte x =
      if addr ≤ x ∧ x < addr + bytes.length ∧ x ≤ 0xFFF then (bytes[x - addr]?).getD 0 else s.readByte x := by
  have hread := storeBytes_readByte bytes s addr x hwf.1
  rw [storeBytes_frame bytes s addr] at hread
  exact blockOutcome_of_both (P := fun t => t.readByte x = _) e hread fun _ => hread

/-- Completed or not, the registers after a block load hold the byte at their address where it is in bounds, and are else as
before. -/
theorem reg_blockOutcome_loaded (s : State) (addr count : Nat) (e : Option FatalError) (i pc : Word) (r : Nibble) :
    (blockOutcome e { s with v := (loadRegs s addr 0 count).1.v, i := i, pc := pc }
      { s with v := (loadRegs s addr 0 count).1.v }).reg r =
      if r.toNat < count ∧ addr + r.toNat ≤ 0xFFF then s.readByte (addr + r.toNat) else s.reg r := by
  have hreg := loadRegs_reg count s addr 0 r.toNat r.isLt
  simp only [Nat.zero_le, true_and, Nat.zero_add, Nat.sub_zero] at hreg
  exact blockOutcome_of_both (P := fun t => t.reg r = _) e hreg fun _ => hreg

/-! ## The three instructions -/

/-- Settles O32: the digits are stored as a block, and the block's error decides how the instruction ends. -/
theorem ldBStoresDecimalDigits : Obligations.LdBStoresDecimalDigits := by
  intro x s hwf
  refine ⟨decodeWord_ldB x, _, execLdB_eq x s, fun k hk hin => ?_, fun a ha => ?_, fun hb => ?_, fun a ha => ?_⟩
  · rw [effAddr_eq_add s k] at hin ⊢
    rw [readByte_blockOutcome_stored (hwf := hwf), if_pos ⟨Nat.le_add_right .., Nat.add_lt_add_left hk _, hin⟩,
      Nat.add_sub_cancel_left]
    have hbyte : (s.reg x).toNat < 256 := (s.reg x).isLt
    interval_cases k
    · exact ofNat_byte_toNat (by omega)
    · exact ofNat_byte_toNat (by omega)
    · exact ofNat_byte_toNat (by omega)
  · rw [readByte_blockOutcome_stored (hwf := hwf)]
    refine if_neg fun ⟨hle, hlt, _⟩ => ha (a - effAddr s 0) (Nat.sub_lt_left_of_lt_add hle hlt) ?_
    rw [effAddr_eq_add, Nat.add_sub_cancel' hle]
  · rw [blockOutcome_of_inBounds hb]
  · rw [blockOutcome_of_firstOffending ha]
    rfl

/-- Settles O33: the group is stored as a block, and the block's error decides how the instruction ends. -/
theorem ldMemVxStoresRegisters : Obligations.LdMemVxStoresRegisters := by
  intro x s hwf
  have hlen := regGroup_length s x
  refine ⟨decodeWord_ldMemVx x, _, execLdMemVx_eq x s, fun r hr hin => ?_, fun a ha => ?_, fun hb => ?_, fun a ha => ?_⟩
  · rw [effAddr_eq_add s r.toNat] at hin ⊢
    rw [readByte_blockOutcome_stored (hwf := hwf), hlen,
      if_pos ⟨Nat.le_add_right .., Nat.add_lt_add_left (Nat.lt_succ_of_le hr) _, hin⟩, Nat.add_sub_cancel_left,
      regGroup_getElem? s x r hr, Option.getD_some]
  · rw [readByte_blockOutcome_stored (hwf := hwf), hlen]
    refine if_neg fun ⟨hle, hlt, _⟩ => ?_
    obtain ⟨r, hr, hra⟩ := exists_inGroup hle hlt
    exact ha r hr hra
  · rw [blockOutcome_of_inBounds hb]
    exact ⟨rfl, index_past_block_toNat s.i x⟩
  · rw [blockOutcome_of_firstOffending ha]
    rfl

/-- Settles O34: the group is loaded as a block, and the block's error decides how the instruction ends. -/
theorem ldVxMemLoadsRegisters : Obligations.LdVxMemLoadsRegisters := by
  intro x s
  refine ⟨decodeWord_ldVxMem x, _, execLdVxMem_eq x s, ?_, fun r hr hin => ?_, fun r hr => ?_, fun hb => ?_, fun a ha => ?_⟩
  · exact blockOutcome_of_both (P := SameMemory s) _ (fun _ => rfl) fun _ _ => rfl
  · rw [reg_blockOutcome_loaded]
    exact if_pos ⟨Nat.lt_succ_of_le hr, hin⟩
  · rw [reg_blockOutcome_loaded]
    exact if_neg fun ⟨hlt, hin⟩ => hr ⟨Nat.le_of_lt_succ hlt, hin⟩
  · rw [blockOutcome_of_inBounds hb]
    exact ⟨rfl, index_past_block_toNat s.i x⟩
  · rw [blockOutcome_of_firstOffending ha]
    rfl

/-- Settles O35: in bounds every address of the group is stored to by `Fx55` and loaded from by `Fx65`. -/
theorem storeThenLoadReproducesRegisters : Obligations.StoreThenLoadReproducesRegisters := by
  intro x s between hwf hbounds
  obtain ⟨-, t, hstore, hstored, -, hdone, -⟩ := ldMemVxStoresRegisters x s hwf
  obtain ⟨-, u, hload, hmem, hloaded, -, hdone', -⟩ := ldVxMemLoadsRegisters x { t with v := between, i := s.i }
  obtain ⟨-, hti⟩ := hdone hbounds
  obtain ⟨-, hui⟩ := hdone' hbounds
  refine ⟨t, u, hstore, hload, fun r hr => ?_, BitVec.eq_of_toNat_eq (hui.trans hti.symm), hmem⟩
  have hin : effAddr s r.toNat ≤ 0xFFF := hbounds r.toNat (Nat.lt_succ_of_le hr)
  exact (hloaded r hr hin).trans (hstored r hr hin)

end Sys2Proof.Machine
end

section
/-! PROOFS about drawing (spec/44_display.md). -/

namespace Sys2Proof.Machine

/-! ## The sprite and the places it toggles -/

theorem spriteRows_length (s : State) (n : Nibble) : (spriteRows s n).length = n.toNat := by
  rw [spriteRows, List.length_map, List.length_range]

theorem spriteRows_length_le (s : State) (n : Nibble) : (spriteRows s n).length ≤ 32 := by
  have hn : n.toNat < 16 := n.isLt
  rw [spriteRows_length]
  omega

theorem spriteRows_getElem (s : State) (n : Nibble) (r : Nat) (h : r < (spriteRows s n).length) :
    (spriteRows s n)[r] = s.readByte (effAddr s r) := by
  simp only [spriteRows, List.getElem_map, List.getElem_range]
  rfl

/-- The places a draw toggles are the pixels its sprite covers. -/
theorem mem_spritePlaces_iff_covers (s : State) (x y n : Nibble) {py px : Nat} (hy : py < 32) (hx : px < 64) :
    (py, px) ∈ spritePlaces s.params.edgeWrap (s.reg x).toNat (s.reg y).toNat (spriteRows s n) ↔
      SpriteCovers s x y n py px := by
  rw [mem_spritePlaces]
  constructor
  · rintro ⟨r, hr, c, hc, hbit, htarget⟩
    rw [spriteRows_getElem] at hbit
    obtain ⟨-, -, hplace⟩ := target_some.mp htarget
    exact ⟨r, spriteRows_length s n ▸ hr, c, hc, hbit, hplace⟩
  · rintro ⟨r, hr, c, hc, hbit, hplace⟩
    have hr' : r < (spriteRows s n).length := (spriteRows_length s n).symm ▸ hr
    refine ⟨r, hr', c, hc, ?_, target_some.mpr ⟨hy, hx, hplace⟩⟩
    rw [spriteRows_getElem]
    exact hbit

theorem drawOf_pixel_of_covers {s : State} {x y n : Nibble} {py px : Nat} (hy : py < 32) (hx : px < 64)
    (h : SpriteCovers s x y n py px) : (drawOf s x y n).1.pixel py px = !s.fb.pixel py px :=
  (drawSprite_pixel _ _ _ _ _ (spriteRows_length_le s n) py px).trans
    (if_pos ((mem_spritePlaces_iff_covers s x y n hy hx).mpr h))

theorem drawOf_pixel_of_not_covers {s : State} {x y n : Nibble} {py px : Nat} (hy : py < 32) (hx : px < 64)
    (h : ¬SpriteCovers s x y n py px) : (drawOf s x y n).1.pixel py px = s.fb.pixel py px :=
  (drawSprite_pixel _ _ _ _ _ (spriteRows_length_le s n) py px).trans
    (if_neg fun hmem => h ((mem_spritePlaces_iff_covers s x y n hy hx).mp hmem))

/-- A draw collides exactly when its sprite covers a set pixel (R162). -/
theorem drawOf_collision (s : State) (x y n : Nibble) :
    (drawOf s x y n).2 = true ↔ ∃ py < 32, ∃ px < 64, SpriteCovers s x y n py px ∧ s.fb.pixel py px = true := by
  rw [drawOf, drawSprite_collision _ _ _ _ _ (spriteRows_length_le s n)]
  constructor
  · rintro ⟨⟨py, px⟩, hmem, hset⟩
    obtain ⟨hy, hx⟩ := spritePlaces_onGrid hmem
    exact ⟨py, hy, px, hx, (mem_spritePlaces_iff_covers s x y n hy hx).mp hmem, hset⟩
  · rintro ⟨py, hy, px, hx, hcovers, hset⟩
    exact ⟨(py, px), (mem_spritePlaces_iff_covers s x y n hy hx).mpr hcovers, hset⟩

/-! ## The instruction -/

/-- The state after a draw that meets no error (R166). -/
def State.drawn (s : State) (x y n : Nibble) : State :=
  ({ s with fb := (drawOf s x y n).1 }.setVF (collisionFlag (drawOf s x y n).2)).advance

theorem exec_drw_of_inBounds {s : State} {n : Nibble} (h : BlockInBounds s n.toNat) (x y : Nibble) :
    exec (.drw x y n) s = .next (s.drawn x y n) :=
  (execDrw_eq x y n s).trans (congrArg Host.Outcome.next (blockOutcome_of_inBounds h _ _))

theorem drawn_reg (s : State) (x y n r : Nibble) :
    (s.drawn x y n).reg r = if r = 0xF then collisionFlag (drawOf s x y n).2 else s.reg r := by
  rw [State.drawn, State.reg_advance, State.reg_setVF]
  rfl

theorem drawn_regF_of_collision {s : State} {x y n : Nibble} (h : (drawOf s x y n).2 = true) :
    (s.drawn x y n).reg 0xF = 1 := by
  rw [drawn_reg, if_pos rfl, h]
  rfl

theorem drawn_regF_of_no_collision {s : State} {x y n : Nibble} (h : ¬(drawOf s x y n).2 = true) :
    (s.drawn x y n).reg 0xF = 0 := by
  rw [drawn_reg, if_pos rfl, Bool.eq_false_iff.mpr h]
  rfl

/-- Settles O37: the places toggled are the pixels the sprite covers, each once. -/
theorem drwXorsSpriteAndFlagsCollision : Obligations.DrwXorsSpriteAndFlagsCollision := by
  intro x y n s
  refine ⟨decodeWord_drw x y n, fun hbounds => ⟨_, exec_drw_of_inBounds hbounds x y, rfl, fun _ => rfl, fun r hr => ?_,
    fun py hy px hx => ⟨drawOf_pixel_of_covers hy hx, drawOf_pixel_of_not_covers hy hx⟩, fun h => ?_, fun h => ?_⟩⟩
  · rw [drawn_reg, if_neg hr]
  · exact drawn_regF_of_collision ((drawOf_collision s x y n).mpr h)
  · exact drawn_regF_of_no_collision fun hc => h ((drawOf_collision s x y n).mp hc)

/-- Settles O38. -/
theorem drwOutOfBoundsDrawsNothing : Obligations.DrwOutOfBoundsDrawsNothing := by
  intro x y n s a ha
  exact (execDrw_eq x y n s).trans (congrArg Host.Outcome.next (blockOutcome_of_firstOffending ha _ _))

/-! ## Drawing twice -/

/-- The state a second draw starts from: only the frame is that after the first draw. -/
def State.withDrawnFrame (s : State) (x y n : Nibble) : State := { s with fb := (drawOf s x y n).1 }

/-- The frame is not among what a sprite is read from. -/
theorem spriteCovers_withDrawnFrame (s : State) (x y n : Nibble) (py px : Nat) :
    SpriteCovers (s.withDrawnFrame x y n) x y n py px ↔ SpriteCovers s x y n py px := Iff.rfl

/-- Both draws toggle the same pixels, so the second restores the frame. -/
theorem drawOf_withDrawnFrame_fb (s : State) (x y n : Nibble) : (drawOf (s.withDrawnFrame x y n) x y n).1 = s.fb := by
  refine Frame.ext_pixel fun py hy px hx => ?_
  by_cases h : SpriteCovers s x y n py px
  · rw [drawOf_pixel_of_covers hy hx ((spriteCovers_withDrawnFrame s x y n py px).mpr h), State.withDrawnFrame,
      drawOf_pixel_of_covers hy hx h, Bool.not_not]
  · rw [drawOf_pixel_of_not_covers hy hx (mt (spriteCovers_withDrawnFrame s x y n py px).mp h), State.withDrawnFrame,
      drawOf_pixel_of_not_covers hy hx h]

/-- A covered pixel is set after the first draw exactly when it was unset before, and no other pixel changes. -/
theorem drawOf_withDrawnFrame_collision (s : State) (x y n : Nibble) :
    (drawOf (s.withDrawnFrame x y n) x y n).2 = true ↔
      ∃ py < 32, ∃ px < 64, s.fb.pixel py px = false ∧ (drawOf s x y n).1.pixel py px = true := by
  rw [drawOf_collision]
  refine exists_congr fun py => and_congr_right fun hy => exists_congr fun px => and_congr_right fun hx => ?_
  rw [spriteCovers_withDrawnFrame, State.withDrawnFrame]
  by_cases h : SpriteCovers s x y n py px
  · simp [h, drawOf_pixel_of_covers hy hx h]
  · simp [h, drawOf_pixel_of_not_covers hy hx h]

/-- Settles O39: between the draws `VF` and `PC` are set back, so the second starts from `State.withDrawnFrame`. -/
theorem drawingTwiceRestoresFrame : Obligations.DrawingTwiceRestoresFrame := by
  intro x y n s hbounds
  have hcollision := drawOf_withDrawnFrame_collision s x y n
  exact ⟨_, _, exec_drw_of_inBounds hbounds x y, exec_drw_of_inBounds (s := s.withDrawnFrame x y n) hbounds x y,
    drawOf_withDrawnFrame_fb s x y n, fun h => drawn_regF_of_collision (hcollision.mpr h),
    fun h => drawn_regF_of_no_collision fun hc => h (hcollision.mp hc)⟩

end Sys2Proof.Machine
end
